-- ==== Sys2Proof/Word.lean ====
section
/-! DEFINITION. The word types of the CHIP-8 core: spec/10_state.md R22 to R31 (widths), spec/30_encoding.md R71 (fields). -/

namespace Sys2Proof

/-- A byte: a V register, a timer, a memory cell, an immediate `kk` (R12, R22). -/
abbrev Byte := BitVec 8

/-- A 16-bit word: `I`, `pc`, a stack slot, an instruction word (R12, R24, R25, R29). -/
abbrev Word := BitVec 16

/-- The 12-bit address field `nnn` (R10). -/
abbrev Addr12 := BitVec 12

/-- A register index, the 4-bit field `x` or `y`; all 16 values are legal (R73). -/
abbrev Reg := BitVec 4

/-- The 4-bit count `n` of `DRW` (R10). -/
abbrev Nibble := BitVec 4

/-- A key number, 0 to 15 (spec/44_keypad_timers.md R165). -/
abbrev Key := BitVec 4

/-- One framebuffer row: bit `63 - c` is column `c` (R31). -/
abbrev Row := BitVec 64

/-- The framebuffer: 32 rows of 64 pixels (R31). -/
abbrev Framebuffer := Vector Row 32

/-- The flag register VF (R23). -/
abbrev regF : Reg := 15

/-- Register V0, the implicit operand of `JP V0,addr` (R22). -/
abbrev reg0 : Reg := 0

end Sys2Proof
end

