-- ==== Sys2Proof/Config.lean ====
section
/-! DEFINITION. What is fixed for one machine (the named parameters of spec/00_scope.md R6), what the environment draws
(spec/10_state.md R40), and the free values the spec leaves open (spec/60_exceptions.md R181). -/

namespace Sys2Proof

/-- Which register `SHR`/`SHL` read (R6 SHIFT_SOURCE; R140, R142). -/
inductive ShiftSource where
  | vy
  | vx
  deriving DecidableEq, Repr, Inhabited

/-- How `DRW` aggregates collisions over sprite rows (R6 DRW_COLLISION; R173). -/
inductive Collision where
  | orRows
  | lastRow
  deriving DecidableEq, Repr, Inhabited

/-- What `SKP`/`SKNP` do with `Vx > 15` (R6 KEY_OOR; R163). -/
inductive KeyOutOfRange where
  | fault
  | notPressed
  deriving DecidableEq, Repr, Inhabited

/-- The named parameters of R6 that shape a step. ROM and FONT are arguments of `State.boot`; COLLAB_ALIVE is the
environment's, per answer (`Draw`). -/
structure Config where
  /-- ZERO_WORD_HALTS: the fetched word 0x0000 ends the run (R92). -/
  zeroWordHalts : Bool
  /-- SHIFT_SOURCE (R140, R142). -/
  shiftSource : ShiftSource
  /-- STACK_PREINCREMENT: SP is incremented before the store, 15 levels; else 16 levels (R110, R111). -/
  stackPreincrement : Bool
  /-- DRW_COLLISION (R173). -/
  drwCollision : Collision
  /-- STRICT_LOW_NIBBLE: 5xyN and 9xyN with N ≠ 0 are decode errors (R78). -/
  strictLowNibble : Bool
  /-- TIMER_CATCHUP: one decrement per elapsed period instead of one per check (R192). -/
  timerCatchup : Bool
  /-- KEY_OOR (R163). -/
  keyOor : KeyOutOfRange
  deriving DecidableEq, Repr, Inhabited

/-- The spec's defaults, the "default" column of R6. -/
def Config.default : Config :=
  { zeroWordHalts := true, shiftSource := .vy, stackPreincrement := true, drwCollision := .orRows,
    strictLowNibble := true, timerCatchup := false, keyOor := .fault }

/-- The answer of `IsKeyPressed` (R40(b), R203, R209). -/
inductive KeyState where
  | down
  | up
  | unavailable
  deriving DecidableEq, Repr, Inhabited

/-- The answer of `WaitForKeyRelease` (R40(c), R204): not yet there (the engine is held, R98), a key, or no collaborator. -/
inductive KeyRelease where
  | pending
  | released (k : Key)
  | unavailable
  deriving DecidableEq, Repr, Inhabited

/-- What the environment supplies to one cycle (R40). A cycle reads at most these four values. -/
structure Draw where
  /-- The random byte of `RND` (R143). -/
  rnd : Byte
  /-- The answer to the key query of `SKP`/`SKNP` (R163). -/
  keyDown : KeyState
  /-- The answer to the wait of `LD Vx,K` (R164). -/
  keyReleased : KeyRelease
  /-- Timer periods elapsed since the last check that fired (R191, R242); `tick` is "at least one". -/
  periods : Nat
  deriving DecidableEq, Repr, Inhabited

namespace Config

/-- FREE VALUE. The draw of the `n`-th cycle when the environment's list holds none: any value (R40; U2, U6, U7, U8). -/
opaque freeDraw : Nat → Draw

/-- FREE VALUE. What a return in cycle `n` pops when `SP` lies past the last slot (R28, R29: no legal state; log 9). -/
opaque freeSlot : Nat → Word

/-- FREE VALUE. V0 to VF after the fault of draw `n` (R181, R69; U1: any value); so for each component below. -/
opaque faultV : Nat → Vector Byte 16

/-- FREE VALUE. `I` after a fault (R181). -/
opaque faultI : Nat → Word

/-- FREE VALUE. `pc` after a fault (R181). -/
opaque faultPc : Nat → Word

/-- FREE VALUE. `DT` after a fault (R181). -/
opaque faultDt : Nat → Byte

/-- FREE VALUE. `ST` after a fault (R181). -/
opaque faultSt : Nat → Byte

/-- FREE VALUE. `SP` after a fault (R181). -/
opaque faultSp : Nat → Byte

/-- FREE VALUE. The stack slots after a fault (R181). -/
opaque faultStack : Nat → Vector Word 16

/-- FREE VALUE. The byte of memory at the second argument after a fault (R181). -/
opaque faultByte : Nat → Nat → Byte

/-- FREE VALUE. The framebuffer after a fault (R181). -/
opaque faultFb : Nat → Framebuffer

end Config

end Sys2Proof
end

