-- ==== Sys2Proof/Syntax.lean ====
section
/-! DEFINITION. The 35 instructions, one constructor per row of spec/opcode_table.json, in the table's order
(spec/30_encoding.md R75, R76). -/

namespace Sys2Proof

/-- An instruction with its operands as decoded fields (R71, R73). -/
inductive Instr where
  /-- `SYS addr`, word 0nnn (R113). -/
  | sys (nnn : Addr12)
  /-- `CLS`, word 00E0 (R170). -/
  | cls
  /-- `RET`, word 00EE (R114). -/
  | ret
  /-- `JP addr`, word 1nnn (R115). -/
  | jp (nnn : Addr12)
  /-- `CALL addr`, word 2nnn (R116). -/
  | call (nnn : Addr12)
  /-- `SE Vx,byte`, word 3xkk (R117). -/
  | seImm (x : Reg) (kk : Byte)
  /-- `SNE Vx,byte`, word 4xkk (R118). -/
  | sneImm (x : Reg) (kk : Byte)
  /-- `SE Vx,Vy`, word 5xy0 (R119). -/
  | seReg (x y : Reg)
  /-- `LD Vx,byte`, word 6xkk (R132). -/
  | ldImm (x : Reg) (kk : Byte)
  /-- `ADD Vx,byte`, word 7xkk (R133). -/
  | addImm (x : Reg) (kk : Byte)
  /-- `LD Vx,Vy`, word 8xy0 (R134). -/
  | ldReg (x y : Reg)
  /-- `OR Vx,Vy`, word 8xy1 (R135). -/
  | orReg (x y : Reg)
  /-- `AND Vx,Vy`, word 8xy2 (R136). -/
  | andReg (x y : Reg)
  /-- `XOR Vx,Vy`, word 8xy3 (R137). -/
  | xorReg (x y : Reg)
  /-- `ADD Vx,Vy`, word 8xy4 (R138). -/
  | addReg (x y : Reg)
  /-- `SUB Vx,Vy`, word 8xy5 (R139). -/
  | sub (x y : Reg)
  /-- `SHR Vx,Vy`, word 8xy6 (R140). -/
  | shr (x y : Reg)
  /-- `SUBN Vx,Vy`, word 8xy7 (R141). -/
  | subn (x y : Reg)
  /-- `SHL Vx,Vy`, word 8xyE (R142). -/
  | shl (x y : Reg)
  /-- `SNE Vx,Vy`, word 9xy0 (R120). -/
  | sneReg (x y : Reg)
  /-- `LD I,addr`, word Annn (R150). -/
  | ldI (nnn : Addr12)
  /-- `JP V0,addr`, word Bnnn (R122). -/
  | jpV0 (nnn : Addr12)
  /-- `RND Vx,byte`, word Cxkk (R143). -/
  | rnd (x : Reg) (kk : Byte)
  /-- `DRW Vx,Vy,nibble`, word Dxyn (R172). -/
  | drw (x y : Reg) (n : Nibble)
  /-- `SKP Vx`, word Ex9E (R160). -/
  | skp (x : Reg)
  /-- `SKNP Vx`, word ExA1 (R161). -/
  | sknp (x : Reg)
  /-- `LD Vx,DT`, word Fx07 (R162). -/
  | ldVxDt (x : Reg)
  /-- `LD Vx,K`, word Fx0A (R164). -/
  | ldVxK (x : Reg)
  /-- `LD DT,Vx`, word Fx15 (R166). -/
  | ldDtVx (x : Reg)
  /-- `LD ST,Vx`, word Fx18 (R167). -/
  | ldStVx (x : Reg)
  /-- `ADD I,Vx`, word Fx1E (R151). -/
  | addI (x : Reg)
  /-- `LD F,Vx`, word Fx29 (R152). -/
  | ldF (x : Reg)
  /-- `LD B,Vx`, word Fx33 (R153). -/
  | ldB (x : Reg)
  /-- `LD [I],Vx`, word Fx55 (R156). -/
  | storeRegs (x : Reg)
  /-- `LD Vx,[I]`, word Fx65 (R157). -/
  | loadRegs (x : Reg)
  deriving DecidableEq, Repr

end Sys2Proof
end

