-- ==== Sys2Proof/WellFormed.lean ====
section
/-! DEFINITION. Which instruction terms have a word of their own (spec/41_control_flow.md R113: "`SYS 0x0E0` and `SYS 0x0EE`
cannot be encoded"). The ranges of the other operands are their types: spec/30_encoding.md R73, no other value is refused. -/

namespace Sys2Proof

/-- The instruction can be encoded: `SYS 0x0E0` and `SYS 0x0EE` cannot, their words are `CLS` and `RET` (R113). -/
def WellFormed : Instr → Bool
  | .sys nnn => nnn != 0x0E0 && nnn != 0x0EE
  | .cls | .ret => true
  | .jp _ | .call _ | .ldI _ | .jpV0 _ => true
  | .seImm _ _ | .sneImm _ _ | .ldImm _ _ | .addImm _ _ | .rnd _ _ => true
  | .seReg _ _ | .sneReg _ _ | .ldReg _ _ | .orReg _ _ | .andReg _ _ | .xorReg _ _ => true
  | .addReg _ _ | .sub _ _ | .shr _ _ | .subn _ _ | .shl _ _ => true
  | .drw _ _ _ => true
  | .skp _ | .sknp _ | .ldVxDt _ | .ldVxK _ | .ldDtVx _ | .ldStVx _ => true
  | .addI _ | .ldF _ | .ldB _ | .storeRegs _ | .loadRegs _ => true

end Sys2Proof
end

