-- ==== Sys2Proof/Decode.lean ====
section
/-! DEFINITION. The decoder and the encoder, from spec/30_encoding.md: fields R71, formats R72, decode algorithm R74,
opcode map R76, illegal words R77, R78. -/

namespace Sys2Proof

/-! ## Fields of a word (R71) -/

/-- `n1 = w[15:12]`, the family. -/
def fieldOp (w : Word) : BitVec 4 := w.extractLsb' 12 4

/-- `x = n2 = w[11:8]`. -/
def fieldX (w : Word) : Reg := w.extractLsb' 8 4

/-- `y = n3 = w[7:4]`. -/
def fieldY (w : Word) : Reg := w.extractLsb' 4 4

/-- `n = n4 = w[3:0]`. -/
def fieldN (w : Word) : Nibble := w.extractLsb' 0 4

/-- `kk = w[7:0]`. -/
def fieldKK (w : Word) : Byte := w.extractLsb' 0 8

/-- `nnn = w[11:0]`. -/
def fieldNNN (w : Word) : Addr12 := w.extractLsb' 0 12

/-- The big-endian word of two bytes, the byte at the lower address first (spec/20_memory.md R50). -/
def wordOfBytes (hi lo : Byte) : Word := hi ++ lo

/-- The two bytes of a word as memory holds them, `(lower address, higher address)` (R50). -/
def bytesOfWord (w : Word) : Byte × Byte := (w.extractLsb' 8 8, w.extractLsb' 0 8)

/-! ## The decoder (R74) -/

/-- Why a decode gives no instruction. -/
inductive DecodeError where
  /-- The word matches no row of R76 (R77). -/
  | illegalWord (w : Word)
  /-- Fewer than two bytes were given (R70: every instruction is two bytes). -/
  | truncated
  deriving DecidableEq, Repr

/-- Family 8 selects on the low nibble (R74). -/
def decode8 (w : Word) : Except DecodeError Instr :=
  match fieldN w with
  | 0x0#4 => .ok (.ldReg (fieldX w) (fieldY w))
  | 0x1#4 => .ok (.orReg (fieldX w) (fieldY w))
  | 0x2#4 => .ok (.andReg (fieldX w) (fieldY w))
  | 0x3#4 => .ok (.xorReg (fieldX w) (fieldY w))
  | 0x4#4 => .ok (.addReg (fieldX w) (fieldY w))
  | 0x5#4 => .ok (.sub (fieldX w) (fieldY w))
  | 0x6#4 => .ok (.shr (fieldX w) (fieldY w))
  | 0x7#4 => .ok (.subn (fieldX w) (fieldY w))
  | 0xE#4 => .ok (.shl (fieldX w) (fieldY w))
  | _ => .error (.illegalWord w)

/-- Family E selects on the low byte (R74). -/
def decodeE (w : Word) : Except DecodeError Instr :=
  match fieldKK w with
  | 0x9E#8 => .ok (.skp (fieldX w))
  | 0xA1#8 => .ok (.sknp (fieldX w))
  | _ => .error (.illegalWord w)

/-- Family F selects on the low byte (R74). -/
def decodeF (w : Word) : Except DecodeError Instr :=
  match fieldKK w with
  | 0x07#8 => .ok (.ldVxDt (fieldX w))
  | 0x0A#8 => .ok (.ldVxK (fieldX w))
  | 0x15#8 => .ok (.ldDtVx (fieldX w))
  | 0x18#8 => .ok (.ldStVx (fieldX w))
  | 0x1E#8 => .ok (.addI (fieldX w))
  | 0x29#8 => .ok (.ldF (fieldX w))
  | 0x33#8 => .ok (.ldB (fieldX w))
  | 0x55#8 => .ok (.storeRegs (fieldX w))
  | 0x65#8 => .ok (.loadRegs (fieldX w))
  | _ => .error (.illegalWord w)

/-- The two register-register skips: with `strict` (STRICT_LOW_NIBBLE, the default) the low nibble must be 0 (R78). -/
def decodeSkipReg (strict : Bool) (w : Word) (i : Instr) : Except DecodeError Instr :=
  if strict && fieldN w != 0 then .error (.illegalWord w) else .ok i

/-- `Decode(w)`: pure and total (R74). The `0` family distinguishes `0x00E0` and `0x00EE` before `SYS`; the word 0x0000
decodes to `SYS 0x000` (R79: the engine never asks). -/
def decodeWord (strict : Bool) (w : Word) : Except DecodeError Instr :=
  match fieldOp w with
  | 0x0#4 => if w = 0x00E0 then .ok .cls else if w = 0x00EE then .ok .ret else .ok (.sys (fieldNNN w))
  | 0x1#4 => .ok (.jp (fieldNNN w))
  | 0x2#4 => .ok (.call (fieldNNN w))
  | 0x3#4 => .ok (.seImm (fieldX w) (fieldKK w))
  | 0x4#4 => .ok (.sneImm (fieldX w) (fieldKK w))
  | 0x5#4 => decodeSkipReg strict w (.seReg (fieldX w) (fieldY w))
  | 0x6#4 => .ok (.ldImm (fieldX w) (fieldKK w))
  | 0x7#4 => .ok (.addImm (fieldX w) (fieldKK w))
  | 0x8#4 => decode8 w
  | 0x9#4 => decodeSkipReg strict w (.sneReg (fieldX w) (fieldY w))
  | 0xA#4 => .ok (.ldI (fieldNNN w))
  | 0xB#4 => .ok (.jpV0 (fieldNNN w))
  | 0xC#4 => .ok (.rnd (fieldX w) (fieldKK w))
  | 0xD#4 => .ok (.drw (fieldX w) (fieldY w) (fieldN w))
  | 0xE#4 => decodeE w
  | _ => decodeF w

/-- The decoder on a byte stream: one instruction and the bytes after it (R50, R70). -/
def decodeBytes (strict : Bool) : List Byte → Except DecodeError (Instr × List Byte)
  | hi :: lo :: rest =>
    match decodeWord strict (wordOfBytes hi lo) with
    | .ok i => .ok (i, rest)
    | .error e => .error e
  | [_] => .error .truncated
  | [] => .error .truncated

/-! ## The encoder (R72, R76) -/

/-- Format NNN: `op ++ nnn`. -/
def wordNNN (op : BitVec 4) (nnn : Addr12) : Word := op ++ nnn

/-- Formats XKK and X: `op ++ x ++ kk` (in format X the low byte is the sub-opcode). -/
def wordXKK (op : BitVec 4) (x : Reg) (kk : Byte) : Word := op ++ x ++ kk

/-- Formats XYN and XY: `op ++ x ++ y ++ n` (in format XY the low nibble is the sub-opcode). -/
def wordXYN (op : BitVec 4) (x y : Reg) (n : Nibble) : Word := op ++ x ++ y ++ n

/-- The word of an instruction, by the rows of R76. -/
def encode : Instr → Word
  | .sys nnn => wordNNN 0x0 nnn
  | .cls => 0x00E0
  | .ret => 0x00EE
  | .jp nnn => wordNNN 0x1 nnn
  | .call nnn => wordNNN 0x2 nnn
  | .seImm x kk => wordXKK 0x3 x kk
  | .sneImm x kk => wordXKK 0x4 x kk
  | .seReg x y => wordXYN 0x5 x y 0x0
  | .ldImm x kk => wordXKK 0x6 x kk
  | .addImm x kk => wordXKK 0x7 x kk
  | .ldReg x y => wordXYN 0x8 x y 0x0
  | .orReg x y => wordXYN 0x8 x y 0x1
  | .andReg x y => wordXYN 0x8 x y 0x2
  | .xorReg x y => wordXYN 0x8 x y 0x3
  | .addReg x y => wordXYN 0x8 x y 0x4
  | .sub x y => wordXYN 0x8 x y 0x5
  | .shr x y => wordXYN 0x8 x y 0x6
  | .subn x y => wordXYN 0x8 x y 0x7
  | .shl x y => wordXYN 0x8 x y 0xE
  | .sneReg x y => wordXYN 0x9 x y 0x0
  | .ldI nnn => wordNNN 0xA nnn
  | .jpV0 nnn => wordNNN 0xB nnn
  | .rnd x kk => wordXKK 0xC x kk
  | .drw x y n => wordXYN 0xD x y n
  | .skp x => wordXKK 0xE x 0x9E
  | .sknp x => wordXKK 0xE x 0xA1
  | .ldVxDt x => wordXKK 0xF x 0x07
  | .ldVxK x => wordXKK 0xF x 0x0A
  | .ldDtVx x => wordXKK 0xF x 0x15
  | .ldStVx x => wordXKK 0xF x 0x18
  | .addI x => wordXKK 0xF x 0x1E
  | .ldF x => wordXKK 0xF x 0x29
  | .ldB x => wordXKK 0xF x 0x33
  | .storeRegs x => wordXKK 0xF x 0x55
  | .loadRegs x => wordXKK 0xF x 0x65

/-- The bytes of an instruction as memory holds them, lower address first (R50). -/
def encodeBytes (i : Instr) : List Byte := [(bytesOfWord (encode i)).1, (bytesOfWord (encode i)).2]

/-! ## The opcode map as data (R76) -/

/-- The `mask` column of R76 for an instruction's row. -/
def rowMask : Instr → Word
  | .cls | .ret => 0xFFFF
  | .sys _ | .jp _ | .call _ | .ldI _ | .jpV0 _ => 0xF000
  | .seImm _ _ | .sneImm _ _ | .ldImm _ _ | .addImm _ _ | .rnd _ _ | .drw _ _ _ => 0xF000
  | .seReg _ _ | .sneReg _ _ | .ldReg _ _ | .orReg _ _ | .andReg _ _ | .xorReg _ _ => 0xF00F
  | .addReg _ _ | .sub _ _ | .shr _ _ | .subn _ _ | .shl _ _ => 0xF00F
  | .skp _ | .sknp _ | .ldVxDt _ | .ldVxK _ | .ldDtVx _ | .ldStVx _ => 0xF0FF
  | .addI _ | .ldF _ | .ldB _ | .storeRegs _ | .loadRegs _ => 0xF0FF

/-- The `match` column of R76 for an instruction's row. -/
def rowMatch : Instr → Word
  | .sys _ => 0x0000
  | .cls => 0x00E0
  | .ret => 0x00EE
  | .jp _ => 0x1000
  | .call _ => 0x2000
  | .seImm _ _ => 0x3000
  | .sneImm _ _ => 0x4000
  | .seReg _ _ => 0x5000
  | .ldImm _ _ => 0x6000
  | .addImm _ _ => 0x7000
  | .ldReg _ _ => 0x8000
  | .orReg _ _ => 0x8001
  | .andReg _ _ => 0x8002
  | .xorReg _ _ => 0x8003
  | .addReg _ _ => 0x8004
  | .sub _ _ => 0x8005
  | .shr _ _ => 0x8006
  | .subn _ _ => 0x8007
  | .shl _ _ => 0x800E
  | .sneReg _ _ => 0x9000
  | .ldI _ => 0xA000
  | .jpV0 _ => 0xB000
  | .rnd _ _ => 0xC000
  | .drw _ _ _ => 0xD000
  | .skp _ => 0xE09E
  | .sknp _ => 0xE0A1
  | .ldVxDt _ => 0xF007
  | .ldVxK _ => 0xF00A
  | .ldDtVx _ => 0xF015
  | .ldStVx _ => 0xF018
  | .addI _ => 0xF01E
  | .ldF _ => 0xF029
  | .ldB _ => 0xF033
  | .storeRegs _ => 0xF055
  | .loadRegs _ => 0xF065

/-- The illegal words of R77, by family (with the strict low nibble of R78). -/
def isIllegal (w : Word) : Bool :=
  match fieldOp w with
  | 0x5#4 => fieldN w != 0
  | 0x8#4 => !([0x0, 0x1, 0x2, 0x3, 0x4, 0x5, 0x6, 0x7, 0xE].contains (fieldN w))
  | 0x9#4 => fieldN w != 0
  | 0xE#4 => !([0x9E, 0xA1].contains (fieldKK w))
  | 0xF#4 => !([0x07, 0x0A, 0x15, 0x18, 0x1E, 0x29, 0x33, 0x55, 0x65].contains (fieldKK w))
  | _ => false

/-- The host's table word: `w`'s low `nbits` bits (bit 0 the least significant of the word) laid out big-endian as memory
holds them and given to the decoder with the spec's default parameters. -/
def decodeTableWord (nbits w : Nat) : Option Instr :=
  let bytes := bytesOfWord (BitVec.ofNat 16 (w % 2 ^ nbits))
  match decodeBytes Config.default.strictLowNibble [bytes.1, bytes.2] with
  | .ok (i, _) => some i
  | .error _ => none

end Sys2Proof
end

