-- ==== Sys2Proof/Machine/Memory.lean ====
section
/-! DEFINITION. The 4096-byte memory (spec/10_state.md R30, spec/20_memory.md R50 to R58) as a canonical list of the bytes
that differ from the reset image. -/

namespace Sys2Proof.Machine

/-! ## The reset image (R36, R37) -/

/-- The default FONT table, glyphs 0 to 7 (R36; from general knowledge, log 3). -/
def fontLow : List Byte :=
  [0xF0, 0x90, 0x90, 0x90, 0xF0] ++ [0x20, 0x60, 0x20, 0x20, 0x70] ++ [0xF0, 0x10, 0xF0, 0x80, 0xF0] ++
  [0xF0, 0x10, 0xF0, 0x10, 0xF0] ++ [0x90, 0x90, 0xF0, 0x10, 0x10] ++ [0xF0, 0x80, 0xF0, 0x10, 0xF0] ++
  [0xF0, 0x80, 0xF0, 0x90, 0xF0] ++ [0xF0, 0x10, 0x20, 0x40, 0x40]

/-- The default FONT table, glyphs 8 to F (R36). -/
def fontHigh : List Byte :=
  [0xF0, 0x90, 0xF0, 0x90, 0xF0] ++ [0xF0, 0x90, 0xF0, 0x10, 0xF0] ++ [0xF0, 0x90, 0xF0, 0x90, 0x90] ++
  [0xE0, 0x90, 0xE0, 0x90, 0xE0] ++ [0xF0, 0x80, 0x80, 0x80, 0xF0] ++ [0xE0, 0x90, 0x90, 0x90, 0xE0] ++
  [0xF0, 0x80, 0xF0, 0x80, 0xF0] ++ [0xF0, 0x80, 0xF0, 0x80, 0x80]

/-- The 80 bytes of the default FONT table, glyph `d` at `5 * d` (R36). -/
def defaultFont : List Byte := fontLow ++ fontHigh

/-- What an unlisted address reads as: the reset image with no ROM, font at 0x000 to 0x04F and zero above (R37). -/
def unlisted (a : Nat) : Byte := defaultFont.getD a 0

/-- The highest address (R5, R30). -/
abbrev lastAddr : Nat := 0xFFF

/-! ## The canonical form -/

/-- The bytes that differ from the reset image, by rising address. -/
abbrev Memory := List Host.Cell

namespace Memory

/-- The canonical form: addresses strictly rising and inside memory, no entry equal to what the address reads as unlisted. -/
abbrev wf (m : Memory) : Prop :=
  List.Pairwise (fun c d => c.1 < d.1) m ∧ ∀ c ∈ m, c.1 ≤ lastAddr ∧ c.2 ≠ unlisted c.1

/-- One byte, the most recent written or the reset value (R60(2)). -/
def read : Memory → Nat → Byte
  | [], a => unlisted a
  | (k, b) :: m, a => if k = a then b else read m a

/-- Put an entry in front, unless the address reads so unlisted. -/
def cons (a : Nat) (b : Byte) (m : Memory) : Memory :=
  if b = unlisted a then m else (a, b) :: m

/-- Write one byte, keeping the canonical form. -/
def write : Memory → Nat → Byte → Memory
  | [], a, b => cons a b []
  | (k, c) :: m, a, b =>
    if k < a then (k, c) :: write m a b
    else if k = a then cons a b m
    else cons a b ((k, c) :: m)

/-- The canonical memory that holds `f a` at every address `a`; its 4096 cases are never unfolded by an elaborator. -/
@[irreducible] def ofBytes (f : Nat → Byte) : Memory :=
  (List.range (lastAddr + 1)).filterMap fun a => if f a = unlisted a then none else some (a, f a)

/-! ## Checked accesses (R55, R56) -/

/-- Read `n` bytes at `a, a + 1, ..` in ascending order; an error is the first address above 0xFFF (R56). -/
def readBlock (m : Memory) (a : Nat) : Nat → Except Nat (List Byte)
  | 0 => .ok []
  | n + 1 =>
    if a ≤ lastAddr then
      match readBlock m (a + 1) n with
      | .ok bs => .ok (m.read a :: bs)
      | .error e => .error e
    else .error a

/-- Write bytes at `a, a + 1, ..` in ascending order; an error is the first address above 0xFFF (R56). -/
def writeBlock (m : Memory) (a : Nat) : List Byte → Except Nat Memory
  | [] => .ok m
  | b :: bs => if a ≤ lastAddr then writeBlock (m.write a b) (a + 1) bs else .error a

/-- Copy bytes from address `a` upward, what lies above 0xFFF dropped: how reset copies FONT and ROM (R220). -/
def load (m : Memory) (a : Nat) : List Byte → Memory
  | [] => m
  | b :: bs => if a ≤ lastAddr then load (m.write a b) (a + 1) bs else m

end Memory

end Sys2Proof.Machine
end

