-- ==== Sys2Proof/Machine/State.lean ====
section
/-! DEFINITION. The machine's state (spec/10_state.md R20 to R41), its reset value (R38) and the reasons a step stops
(spec/60_exceptions.md R180). -/

namespace Sys2Proof.Machine

/-- The fatal faults of R180. Each is raised by a step of the cycle, which then writes `status` (R181); a step of a machine
that is already faulted answers it. All are safe: the spec names them and nothing runs after one. -/
inductive Fault where
  /-- Code 1, raised at step 3 of any cycle whose word matches no row of the opcode map (R182). Safe. -/
  | decodeError (w : Word)
  /-- Code 2, raised by fetch, `DRW`, `LD B,Vx`, `LD [I],Vx`, `LD Vx,[I]`; records the first address above 0xFFF (R183). Safe. -/
  | outOfBoundsAccess (a : Nat)
  /-- Code 3, raised by `CALL` and `SYS` when no slot is left (R184). Safe. -/
  | stackOverflow
  /-- Code 4, raised by `RET` with `SP = 0` (R185). Safe. -/
  | stackUnderflow
  /-- Code 5, raised by `LD Vx,K` when the collaborator is gone (R197). Safe. -/
  | collaboratorUnavailable
  /-- Code 6, raised by `SKP` and `SKNP` with `Vx > 15`, recording the value (R198). Safe. -/
  | keyIndexOutOfRange (v : Byte)
  deriving DecidableEq, Repr

/-- The code column of R180. -/
def Fault.code : Fault → Nat
  | .decodeError _ => 1
  | .outOfBoundsAccess _ => 2
  | .stackOverflow => 3
  | .stackUnderflow => 4
  | .collaboratorUnavailable => 5
  | .keyIndexOutOfRange _ => 6

/-- The reasons the model gives an instruction no meaning. -/
inductive Refusal where
  /-- An instruction whose meaning is not written yet; raised by a refused arm of `exec`. Safe. -/
  | notModelled (mnemonic : String)
  deriving DecidableEq, Repr

/-- The engine's status (R32). Held in `LD Vx,K` is not a status: the engine is running. -/
inductive Status where
  | running
  | halted
  | faulted (f : Fault)
  deriving DecidableEq, Repr

/-- The commands to the collaborator (R35, R200 to R205). -/
inductive Command where
  /-- `RequestRedraw()`, with the framebuffer at emission, the earliest picture the collaborator may show (R201). -/
  | requestRedraw (earliest : Framebuffer)
  /-- `Clear()` (R202). -/
  | clear
  /-- `IsKeyPressed(key)` (R203). -/
  | isKeyPressed (key : Key)
  /-- `WaitForKeyRelease()` (R204). -/
  | waitForKeyRelease
  /-- `SetAudioEnabled(b)` (R205). -/
  | setAudioEnabled (b : Bool)
  deriving DecidableEq, Repr

/-- Everything the spec gives the machine (R21, R35), then the model's own fields: the parameters, the environment's draws. -/
@[ext]
structure State where
  /-- `V0` .. `VF` (R22). -/
  v : Vector Byte 16
  /-- The address register `I` (R24). -/
  i : Word
  /-- The program counter (R25). -/
  pc : Word
  /-- The delay timer `DT` (R26). -/
  dt : Byte
  /-- The sound timer `ST` (R27). -/
  st : Byte
  /-- The stack pointer `SP` (R28). -/
  sp : Byte
  /-- The return stack (R29). -/
  stack : Vector Word 16
  /-- Memory (R30). -/
  mem : Memory
  /-- The framebuffer (R31). -/
  fb : Framebuffer
  /-- The engine's status (R32). -/
  status : Status
  /-- The commands emitted so far, oldest first (R35). -/
  out : List Command
  /-- MODEL'S OWN. The parameters of R6, fixed for a run (R34; log 4). -/
  cfg : Config
  /-- MODEL'S OWN. The environment's draws already known, the next cycle's first (R40; log 5). -/
  inputs : List Draw
  /-- MODEL'S OWN. How many draws were consumed: the argument of the free values (log 5, log 6). -/
  drawn : Nat
  /-- MODEL'S OWN. The collaborator has answered `Unavailable`, and does so for ever (R209; log 7). -/
  collabGone : Bool
  deriving DecidableEq, Repr

/-- The machine right after reset with an empty ROM and the default font (R38, R220 to R222). -/
def State.reset : State :=
  { v := Vector.replicate 16 0
    i := 0
    pc := 0x0200
    dt := 0
    st := 0
    sp := 0
    stack := Vector.replicate 16 0
    mem := []
    fb := Vector.replicate 32 0
    status := .running
    out := []
    cfg := Config.default
    inputs := []
    drawn := 0
    collabGone := false }

end Sys2Proof.Machine
end

