-- ==== Sys2Proof/Machine/Operands.lean ====
section
/-! DEFINITION. Access to each register and the operand forms of the 35 instructions: register, immediate, 12-bit address and
register-indirect through `I` (spec/30_encoding.md R71 to R73, spec/43_index_memory.md R154). -/

namespace Sys2Proof.Machine

namespace State

/-- `V[x]`; no register is hardwired and VF is read like any other (R22). -/
def reg (s : State) (x : Reg) : Byte := s.v[x.toNat]'x.isLt

/-- `V[x] <- b` (R22). -/
def setReg (s : State) (x : Reg) (b : Byte) : State := { s with v := s.v.set x.toNat b x.isLt }

/-- `I <- w` (R24). -/
def setI (s : State) (w : Word) : State := { s with i := w }

/-- `pc <- w` (R25). -/
def setPc (s : State) (w : Word) : State := { s with pc := w }

/-- `DT <- b` (R26). -/
def setDt (s : State) (b : Byte) : State := { s with dt := b }

/-- `ST <- b` with no command; every write of the program or the tick goes through `writeSt` (R195). -/
def setSt (s : State) (b : Byte) : State := { s with st := b }

/-- Memory replaced. -/
def setMem (s : State) (m : Memory) : State := { s with mem := m }

/-- The framebuffer replaced. -/
def setFb (s : State) (fb : Framebuffer) : State := { s with fb := fb }

/-- `status` written (R92, R181). -/
def setStatus (s : State) (t : Status) : State := { s with status := t }

/-- The register file replaced. -/
def setV (s : State) (v : Vector Byte 16) : State := { s with v := v }

/-- The stack and its pointer replaced. -/
def setStack (s : State) (sp : Byte) (stack : Vector Word 16) : State := { s with sp := sp, stack := stack }

/-- `emit c`: a command appended to the output sequence (R9, R200). -/
def emit (s : State) (c : Command) : State := { s with out := s.out ++ [c] }

/-- The collaborator has answered `Unavailable` (R209). -/
def loseCollaborator (s : State) : State := { s with collabGone := true }

/-- The audio level, `ST != 0` (R33(c), R195). -/
def audioOn (s : State) : Bool := s.st != 0

/-- The collaborator's read port: the 32 rows and nothing else (R207). -/
def readPort (s : State) : Framebuffer := s.fb

/-! ## The environment's draws (R40) -/

/-- The draws of the present cycle: the list's first, else a free value (log 5). -/
def draw (s : State) : Draw :=
  match s.inputs with
  | d :: _ => d
  | [] => Config.freeDraw s.drawn

/-- The cycle's draws are used up. -/
def nextDraw (s : State) : State := { s with inputs := s.inputs.tail, drawn := s.drawn + 1 }

/-- The answer to the key query; a collaborator that is gone stays gone (R209). -/
def keyAnswer (s : State) : KeyState := if s.collabGone then .unavailable else s.draw.keyDown

/-- The answer to the key-release wait; a collaborator that is gone stays gone (R209). -/
def releaseAnswer (s : State) : KeyRelease := if s.collabGone then .unavailable else s.draw.keyReleased

end State

/-! ## Operand forms -/

/-- `zext_16(nnn)`: a 12-bit address at the width of `pc` and `I` (R73). -/
def addrOperand (nnn : Addr12) : Word := nnn.zeroExtend 16

/-- `zext_16(V[x])`: a byte at the width of `I` (R73). -/
def wideOperand (b : Byte) : Word := b.zeroExtend 16

/-- `EA(k) = I + k` on unbounded integers (R55, R154). -/
def effectiveAddress (s : State) (k : Nat) : Nat := s.i.toNat + k

/-- The values of `V0` .. `Vx`, ascending: the operands of `LD [I],Vx` (R155). -/
def firstRegs (s : State) (x : Reg) : List Byte := s.v.toList.take (x.toNat + 1)

/-- `V[k] <- b0, V[k + 1] <- b1, ..`: the destination form of `LD Vx,[I]` (R155). -/
def fillRegs (v : Vector Byte 16) (k : Nat) : List Byte → Vector Byte 16
  | [] => v
  | b :: bs => fillRegs (v.setIfInBounds k b) (k + 1) bs

/-- The three decimal digits of a byte, most significant first, always three (R153). -/
def bcdDigits (v : Byte) : List Byte :=
  [BitVec.ofNat 8 (v.toNat / 100), BitVec.ofNat 8 (v.toNat / 10 % 10), BitVec.ofNat 8 (v.toNat % 10)]

end Sys2Proof.Machine
end

