-- ==== Sys2Proof/Machine/Flags.lean ====
section
/-! DEFINITION. Every flag computation the spec gives (spec/10_state.md R23, spec/42_alu.md R131, R138 to R142,
spec/45_display.md R173), and the flag-then-result write. -/

namespace Sys2Proof.Machine

/-- A flag's register value: 0x00 or 0x01, never another (R23). -/
def flagByte (b : Bool) : Byte := if b then 1 else 0

/-- Carry out of the 9-bit sum (R138). -/
def carryOut (a b : Byte) : Bool := decide (a.toNat + b.toNat > 255)

/-- No borrow of `a - b` (R139, R141). -/
def noBorrow (a b : Byte) : Bool := decide (b.toNat ≤ a.toNat)

/-- The bit a right shift loses, `b[0]` (R140). -/
def lowBit (b : Byte) : Bool := b.getLsbD 0

/-- The bit a left shift loses, `b[7]` (R142). -/
def highBit (b : Byte) : Bool := b.getLsbD 7

/-- Some lit pixel was turned off: `(old & ~new) != 0` (R172). -/
def rowCollision (old new : Row) : Bool := (old &&& ~~~new) != 0

/-- `V[15] <- flag`, then `V[x] <- result`: with `x = 15` the result stays (R131). -/
def writeFlagged (s : State) (x : Reg) (flag : Bool) (result : Byte) : State :=
  (s.setReg regF (flagByte flag)).setReg x result

end Sys2Proof.Machine
end

