-- ==== Sys2Proof/Machine/Ops.lean ====
section
/-! DEFINITION. The operations the instructions share: taking a fault (spec/60_exceptions.md R181), the stack
(spec/41_control_flow.md R110 to R112), memory accesses that raise (spec/20_memory.md R56), the timers and the audio edge
(R192, R195), the key query (spec/44_keypad_timers.md R163), and reset with its arguments (R220). -/

namespace Sys2Proof.Machine

/-! ## Taking a fault (R181) -/

/-- Everything R181 leaves unspecified after a fault, at free values: every architectural component but `status`. The
command sequence stands (R33(d): it is no state of the hardware; R186: nothing more is emitted), and so do the parameters
and the environment. Log 6. -/
def afterFault (s : State) : State :=
  { s with
    v := Config.faultV s.drawn
    i := Config.faultI s.drawn
    pc := Config.faultPc s.drawn
    dt := Config.faultDt s.drawn
    st := Config.faultSt s.drawn
    sp := Config.faultSp s.drawn
    stack := Config.faultStack s.drawn
    mem := Memory.ofBytes (Config.faultByte s.drawn)
    fb := Config.faultFb s.drawn }

/-- Fault entry, `status <- Faulted(F, info)`, with every other component unspecified (R181). -/
def enterFault (f : Fault) (s : State) : State := (afterFault s).setStatus (.faulted f)

/-- `raise F(info)`: the machine takes the fault. There is no handler, no saved register and no return (R181, R186). -/
def raise (f : Fault) (s : State) : Host.Outcome State Fault Refusal := .next (enterFault f s)

/-- Go on after an access that may find an address out of range (R56). -/
def orOutOfBounds {α : Type} (r : Except Nat α) (s : State) (k : α → State) : Host.Outcome State Fault Refusal :=
  match r with
  | .ok a => .next (k a)
  | .error a => raise (.outOfBoundsAccess a) s

/-! ## The return stack (R110, R111) -/

/-- The slot a push writes: the one above `SP`, or with STACK_PREINCREMENT = false the one of `SP` (R110). -/
def pushSlot (s : State) : Nat := if s.cfg.stackPreincrement then s.sp.toNat + 1 else s.sp.toNat

/-- `Push(v)`, then `k`. With pre-increment (the default) slots 1 to 15 are used; without it slots 0 to 15. -/
def push (w : Word) (s : State) (k : State → State) : Host.Outcome State Fault Refusal :=
  if h : pushSlot s < 16 then .next (k (s.setStack (s.sp + 1) (s.stack.set (pushSlot s) w h)))
  else raise .stackOverflow s

/-- The slot a pop reads, the mirror of a push (R110, R111). -/
def popSlot (s : State) : Nat := if s.cfg.stackPreincrement then s.sp.toNat else s.sp.toNat - 1

/-- The value a pop reads. A slot past the last one holds a free value: R28 calls no such `SP` legal and R29 gives it no
slot (log 9). -/
def topOfStack (s : State) : Word := if h : popSlot s < 16 then s.stack[popSlot s] else Config.freeSlot s.drawn

/-- `Pop()`, then `k` with the popped value; the slot keeps its value. -/
def pop (s : State) (k : Word → State → State) : Host.Outcome State Fault Refusal :=
  if s.sp.toNat = 0 then raise .stackUnderflow s
  else .next (k (topOfStack s) (s.setStack (s.sp - 1) s.stack))

/-! ## Skip (R112) -/

/-- `Skip()`: `pc <- (pc + 2) mod 65536`. -/
def skip (s : State) : State := s.setPc (s.pc + 2)

/-- Skip the next instruction when the condition holds. -/
def skipIf (c : Bool) (s : State) : State := if c then skip s else s

/-! ## The timers and the audio edge (R192, R195) -/

/-- `WriteST(v)`: the write, and `SetAudioEnabled` when `ST` goes to or from zero. -/
def writeSt (v : Byte) (s : State) : State :=
  let was := s.audioOn
  let t := s.setSt v
  if t.audioOn != was then t.emit (.setAudioEnabled t.audioOn) else t

/-- `TimerDecrement()`: each timer down by one, floored at 0, independently (R192). -/
def timerDecrement (s : State) : State :=
  let s1 := if s.dt.toNat > 0 then s.setDt (s.dt - 1) else s
  if s1.st.toNat > 0 then writeSt (s1.st - 1) s1 else s1

/-- The decrement with TIMER_CATCHUP: down by `p` elapsed periods, floored at 0 (R192). -/
def timerCatchUp (p : Nat) (s : State) : State :=
  let s1 := s.setDt (BitVec.ofNat 8 (s.dt.toNat - p))
  writeSt (BitVec.ofNat 8 (s1.st.toNat - p)) s1

/-- `TimerCheck()`: by the cycle's draw, at most one decrement unless TIMER_CATCHUP (R97, R192). -/
def timerCheck (s : State) : State :=
  if s.cfg.timerCatchup then timerCatchUp s.draw.periods s
  else if s.draw.periods > 0 then timerDecrement s
  else s

/-! ## The key query (R163) -/

/-- `KeyDown(v)`, then `k` with the answer. A value above 15 faults before any command (KEY_OOR = fault), or answers "not
pressed" with no command; a collaborator that is gone answers "not pressed" (R209). -/
def keyDown (v : Byte) (s : State) (k : Bool → State → State) : Host.Outcome State Fault Refusal :=
  if v.toNat > 15 then
    match s.cfg.keyOor with
    | .fault => raise (.keyIndexOutOfRange v) s
    | .notPressed => .next (k false s)
  else
    let t := s.emit (.isKeyPressed (v.truncate 4))
    .next
      (match s.keyAnswer with
      | .down => k true t
      | .up => k false t
      | .unavailable => k false t.loseCollaborator)

/-! ## Reset with its arguments (R220, R222) -/

/-- Reset with parameters, FONT and ROM: every byte 0, then FONT at 0x000, then ROM at 0x200; no reset state for a FONT that
is not 80 bytes or a ROM above 3584 (R222). The font is copied over the unlisted image, which is zero above it. -/
def State.boot (cfg : Config) (font rom : List Byte) : Option State :=
  if font.length = 80 ∧ rom.length ≤ 3584 then
    some { State.reset with
      cfg := cfg
      mem := (State.reset.mem.load 0x000 font).load 0x200 rom }
  else none

end Sys2Proof.Machine
end

