-- ==== Sys2Proof/Machine/Keypad.lean ====
section
/-! DEFINITION. The keypad and timer instructions, spec/44_keypad_timers.md R160 to R168. -/

namespace Sys2Proof.Machine

/-- `SKP Vx`: skip when the key is down (R160). -/
def execSkp (x : Reg) (s : State) : Host.Outcome State Fault Refusal :=
  keyDown (s.reg x) s fun down t => skipIf down t

/-- `SKNP Vx`: skip when the key is not down (R161). -/
def execSknp (x : Reg) (s : State) : Host.Outcome State Fault Refusal :=
  keyDown (s.reg x) s fun down t => skipIf (!down) t

/-- `LD Vx,DT` (R162). -/
def execLdVxDt (x : Reg) (s : State) : Host.Outcome State Fault Refusal :=
  .next (s.setReg x s.dt)

/-- The held engine: `pc` back at the waiting instruction, nothing else changed; "the held engine is described by the state
before step 1 of that cycle" (R98). -/
def hold (s : State) : State := s.setPc (s.pc - 2)

/-- `LD Vx,K`: held while no answer exists; the released key; a fault when the collaborator is gone (R164, R209). -/
def execLdVxK (x : Reg) (s : State) : Host.Outcome State Fault Refusal :=
  .next
    (match s.releaseAnswer with
    | .pending => hold s
    | .released k => (s.emit .waitForKeyRelease).setReg x (k.zeroExtend 8)
    | .unavailable => enterFault .collaboratorUnavailable (s.emit .waitForKeyRelease).loseCollaborator)

/-- `LD DT,Vx` (R166). -/
def execLdDtVx (x : Reg) (s : State) : Host.Outcome State Fault Refusal :=
  .next (s.setDt (s.reg x))

/-- `LD ST,Vx`, with the audio edge command (R167). -/
def execLdStVx (x : Reg) (s : State) : Host.Outcome State Fault Refusal :=
  .next (writeSt (s.reg x) s)

end Sys2Proof.Machine
end

