-- ==== Sys2Proof/Machine/Cycle.lean ====
section
/-! DEFINITION. The steps of the cycle around execution, spec/40_engine_cycle.md R90 to R100, and placing an instruction
where the next fetch reads. -/

namespace Sys2Proof.Machine

/-- Step 1: the big-endian word at `pc`, or the first address out of range (R91). -/
def fetch (s : State) : Except Nat Word :=
  if s.pc.toNat > lastAddr then .error s.pc.toNat
  else if s.pc.toNat + 1 > lastAddr then .error (s.pc.toNat + 1)
  else .ok (wordOfBytes (s.mem.read s.pc.toNat) (s.mem.read (s.pc.toNat + 1)))

/-- Step 2: does the word end the run (R92)? -/
def haltsOn (cfg : Config) (w : Word) : Bool := cfg.zeroWordHalts && w == 0

/-- Step 2: the halt changes `status` and nothing else (R92). -/
def halt (s : State) : State := s.setStatus .halted

/-- Step 4: `pc <- (pc + 2) mod 65536` (R94). -/
def advance (s : State) : State := s.setPc (s.pc + 2)

/-- Is the instruction a draw for step 6? Exactly `DRW` (R96). -/
def isDraw : Instr → Bool
  | .drw _ _ _ => true
  | .sys _ | .cls | .ret | .jp _ | .call _ | .ldI _ | .jpV0 _ => false
  | .seImm _ _ | .sneImm _ _ | .ldImm _ _ | .addImm _ _ | .rnd _ _ => false
  | .seReg _ _ | .sneReg _ _ | .ldReg _ _ | .orReg _ _ | .andReg _ _ | .xorReg _ _ => false
  | .addReg _ _ | .sub _ _ | .shr _ _ | .subn _ _ | .shl _ _ => false
  | .skp _ | .sknp _ | .ldVxDt _ | .ldVxK _ | .ldDtVx _ | .ldStVx _ => false
  | .addI _ | .ldF _ | .ldB _ | .storeRegs _ | .loadRegs _ => false

/-- Does the instruction wait without bound? Exactly `LD Vx,K` (R164). -/
def isWait : Instr → Bool
  | .ldVxK _ => true
  | .sys _ | .cls | .ret | .jp _ | .call _ | .ldI _ | .jpV0 _ => false
  | .seImm _ _ | .sneImm _ _ | .ldImm _ _ | .addImm _ _ | .rnd _ _ => false
  | .seReg _ _ | .sneReg _ _ | .ldReg _ _ | .orReg _ _ | .andReg _ _ | .xorReg _ _ => false
  | .addReg _ _ | .sub _ _ | .shr _ _ | .subn _ _ | .shl _ _ | .drw _ _ _ => false
  | .skp _ | .sknp _ | .ldVxDt _ | .ldDtVx _ | .ldStVx _ => false
  | .addI _ | .ldF _ | .ldB _ | .storeRegs _ | .loadRegs _ => false

/-- The engine is held: the wait's answer does not exist yet (R98, R164). -/
def held (i : Instr) (s : State) : Bool := isWait i && s.releaseAnswer == .pending

/-- Step 6: `RequestRedraw()` after a draw, recording the framebuffer as it now stands (R96, R201). -/
def notifyRedraw (i : Instr) (s : State) : State :=
  if isDraw i then s.emit (.requestRedraw s.readPort) else s

/-- What follows execution. A held cycle has not happened: only the environment's draw is used up (R98). A cycle that
faulted stops at once (R100). Otherwise steps 6 and 7. -/
def endCycle (i : Instr) (s : State) : State :=
  if held i s then s.nextDraw
  else
    match s.status with
    | .running => (timerCheck (notifyRedraw i s)).nextDraw
    | .halted => s
    | .faulted _ => s

/-- The word's two bytes stored big-endian at `pc`, and the engine running: what the next fetch needs. -/
def placeWord (w : Word) (s : State) : State :=
  (s.setMem (s.mem.load s.pc.toNat [(bytesOfWord w).1, (bytesOfWord w).2])).setStatus .running

end Sys2Proof.Machine
end

