-- ==== Sys2Proof/Machine/Alu.lean ====
section
/-! DEFINITION. Register loads, arithmetic, logic, shifts and random, spec/42_alu.md R130 to R144. None faults. -/

namespace Sys2Proof.Machine

/-- `LD Vx,byte` (R132). -/
def execLdImm (x : Reg) (kk : Byte) (s : State) : Host.Outcome State Fault Refusal :=
  .next (s.setReg x kk)

/-- `ADD Vx,byte`: wraps, no flag (R133). -/
def execAddImm (x : Reg) (kk : Byte) (s : State) : Host.Outcome State Fault Refusal :=
  .next (s.setReg x (s.reg x + kk))

/-- `LD Vx,Vy` (R134). -/
def execLdReg (x y : Reg) (s : State) : Host.Outcome State Fault Refusal :=
  .next (s.setReg x (s.reg y))

/-- `OR Vx,Vy`: VF is not written (R135). -/
def execOr (x y : Reg) (s : State) : Host.Outcome State Fault Refusal :=
  .next (s.setReg x (s.reg x ||| s.reg y))

/-- `AND Vx,Vy`: VF is not written (R136). -/
def execAnd (x y : Reg) (s : State) : Host.Outcome State Fault Refusal :=
  .next (s.setReg x (s.reg x &&& s.reg y))

/-- `XOR Vx,Vy`: VF is not written (R137). -/
def execXor (x y : Reg) (s : State) : Host.Outcome State Fault Refusal :=
  .next (s.setReg x (s.reg x ^^^ s.reg y))

/-- `ADD Vx,Vy`: VF is the carry (R138, R131). -/
def execAddReg (x y : Reg) (s : State) : Host.Outcome State Fault Refusal :=
  .next (writeFlagged s x (carryOut (s.reg x) (s.reg y)) (s.reg x + s.reg y))

/-- `SUB Vx,Vy`: VF is no borrow of `Vx - Vy` (R139, R131). -/
def execSub (x y : Reg) (s : State) : Host.Outcome State Fault Refusal :=
  .next (writeFlagged s x (noBorrow (s.reg x) (s.reg y)) (s.reg x - s.reg y))

/-- The register a shift reads: `Vy`, or `Vx` with SHIFT_SOURCE = Vx (R140, R142). -/
def shiftSource (x y : Reg) (s : State) : Byte :=
  match s.cfg.shiftSource with
  | .vy => s.reg y
  | .vx => s.reg x

/-- `SHR Vx,Vy`: VF is the bit shifted out (R140, R131). -/
def execShr (x y : Reg) (s : State) : Host.Outcome State Fault Refusal :=
  .next (writeFlagged s x (lowBit (shiftSource x y s)) (shiftSource x y s >>> 1))

/-- `SUBN Vx,Vy`: VF is no borrow of `Vy - Vx` (R141, R131). -/
def execSubn (x y : Reg) (s : State) : Host.Outcome State Fault Refusal :=
  .next (writeFlagged s x (noBorrow (s.reg y) (s.reg x)) (s.reg y - s.reg x))

/-- `SHL Vx,Vy`: VF is the bit shifted out (R142, R131). -/
def execShl (x y : Reg) (s : State) : Host.Outcome State Fault Refusal :=
  .next (writeFlagged s x (highBit (shiftSource x y s)) (shiftSource x y s <<< 1))

/-- `RND Vx,byte`: a drawn byte AND `kk` (R143). -/
def execRnd (x : Reg) (kk : Byte) (s : State) : Host.Outcome State Fault Refusal :=
  .next (s.setReg x (s.draw.rnd &&& kk))

end Sys2Proof.Machine
end

