-- ==== Sys2Proof/Machine/Control.lean ====
section
/-! DEFINITION. The control transfer instructions, spec/41_control_flow.md R113 to R122. `pc` is the advanced value (R94). -/

namespace Sys2Proof.Machine

/-- `SYS addr`: an ordinary call into memory (R113, 90_conflicts.md C1). -/
def execSys (nnn : Addr12) (s : State) : Host.Outcome State Fault Refusal :=
  push s.pc s fun t => t.setPc (addrOperand nnn)

/-- `RET` (R114). -/
def execRet (s : State) : Host.Outcome State Fault Refusal :=
  pop s fun w t => t.setPc w

/-- `JP addr` (R115). -/
def execJp (nnn : Addr12) (s : State) : Host.Outcome State Fault Refusal :=
  .next (s.setPc (addrOperand nnn))

/-- `CALL addr` (R116). -/
def execCall (nnn : Addr12) (s : State) : Host.Outcome State Fault Refusal :=
  push s.pc s fun t => t.setPc (addrOperand nnn)

/-- `SE Vx,byte` (R117). -/
def execSeImm (x : Reg) (kk : Byte) (s : State) : Host.Outcome State Fault Refusal :=
  .next (skipIf (s.reg x == kk) s)

/-- `SNE Vx,byte` (R118). -/
def execSneImm (x : Reg) (kk : Byte) (s : State) : Host.Outcome State Fault Refusal :=
  .next (skipIf (s.reg x != kk) s)

/-- `SE Vx,Vy` (R119). -/
def execSeReg (x y : Reg) (s : State) : Host.Outcome State Fault Refusal :=
  .next (skipIf (s.reg x == s.reg y) s)

/-- `SNE Vx,Vy` (R120). -/
def execSneReg (x y : Reg) (s : State) : Host.Outcome State Fault Refusal :=
  .next (skipIf (s.reg x != s.reg y) s)

/-- `JP V0,addr`: `nnn + V0` at 16 bits, not reduced to 12 (R122). -/
def execJpV0 (nnn : Addr12) (s : State) : Host.Outcome State Fault Refusal :=
  .next (s.setPc (addrOperand nnn + wideOperand (s.reg reg0)))

end Sys2Proof.Machine
end

