-- ==== Sys2Proof/Machine/Display.lean ====
section
/-! DEFINITION. The display instructions and the sprite blit engine, spec/45_display.md R170 to R176. -/

namespace Sys2Proof.Machine

/-- The framebuffer with every pixel unlit. -/
def blankFb : Framebuffer := Vector.replicate 32 0

/-- `CLS`: the rows zeroed, then `Clear()` (R170). -/
def execCls (s : State) : Host.Outcome State Fault Refusal :=
  .next ((s.setFb blankFb).emit .clear)

/-- `Position(b, vx)`: `rotr64(zext_64(b) << 56, vx mod 64)` (R171). -/
def position (b vx : Byte) : Row := ((b.zeroExtend 64) <<< 56).rotateRight (vx.toNat % 64)

/-- How one row's collision joins those before it (R173). -/
def joinCollision (how : Collision) (sofar row : Bool) : Bool :=
  match how with
  | .orRows => sofar || row
  | .lastRow => row

/-- The blit loop: sprite rows in ascending order from destination row `r mod 32`, XOR composition (R172). -/
def blit (how : Collision) (vx : Byte) : Framebuffer → Nat → Bool → List Byte → Framebuffer × Bool
  | fb, _, collision, [] => (fb, collision)
  | fb, r, collision, b :: bs =>
    let old := fb[r % 32]'(Nat.mod_lt _ (by decide))
    let new := old ^^^ position b vx
    blit how vx (fb.set (r % 32) new (Nat.mod_lt _ (by decide))) (r + 1)
      (joinCollision how collision (rowCollision old new)) bs

/-- `V[15] <- collision`, once, after the last row; with last-row aggregation an empty sprite leaves VF (R172, R173). -/
def writeCollision (n : Nibble) (collision : Bool) (s : State) : State :=
  match s.cfg.drwCollision with
  | .orRows => s.setReg regF (flagByte collision)
  | .lastRow => if n = 0 then s else s.setReg regF (flagByte collision)

/-- `DRW Vx,Vy,nibble` (R172). `RequestRedraw` is step 6 of the cycle (R96). -/
def execDrw (x y : Reg) (n : Nibble) (s : State) : Host.Outcome State Fault Refusal :=
  orOutOfBounds (s.mem.readBlock (effectiveAddress s 0) n.toNat) s fun bs =>
    let drawn := blit s.cfg.drwCollision (s.reg x) s.fb (s.reg y).toNat false bs
    writeCollision n drawn.2 (s.setFb drawn.1)

end Sys2Proof.Machine
end

