-- ==== Sys2Proof/Machine/Index.lean ====
section
/-! DEFINITION. The address register and memory instructions, spec/43_index_memory.md R150 to R157. -/

namespace Sys2Proof.Machine

/-- `LD I,addr` (R150). -/
def execLdI (nnn : Addr12) (s : State) : Host.Outcome State Fault Refusal :=
  .next (s.setI (addrOperand nnn))

/-- `ADD I,Vx`: wraps at 16 bits, no flag (R151). -/
def execAddI (x : Reg) (s : State) : Host.Outcome State Fault Refusal :=
  .next (s.setI (s.i + wideOperand (s.reg x)))

/-- `LD F,Vx`: `5 * Vx` of the whole byte, no memory access (R152). -/
def execLdF (x : Reg) (s : State) : Host.Outcome State Fault Refusal :=
  .next (s.setI (5 * wideOperand (s.reg x)))

/-- `LD B,Vx`: three digits at `I`, `I + 1`, `I + 2` (R153). -/
def execLdB (x : Reg) (s : State) : Host.Outcome State Fault Refusal :=
  orOutOfBounds (s.mem.writeBlock (effectiveAddress s 0) (bcdDigits (s.reg x))) s fun m => s.setMem m

/-- `LD [I],Vx`: `V0` .. `Vx` at `I` upward; `I` unchanged (R156). -/
def execStoreRegs (x : Reg) (s : State) : Host.Outcome State Fault Refusal :=
  orOutOfBounds (s.mem.writeBlock (effectiveAddress s 0) (firstRegs s x)) s fun m => s.setMem m

/-- `LD Vx,[I]`: `V0` .. `Vx` from `I` upward; `I` unchanged (R157). -/
def execLoadRegs (x : Reg) (s : State) : Host.Outcome State Fault Refusal :=
  orOutOfBounds (s.mem.readBlock (effectiveAddress s 0) (x.toNat + 1)) s fun bs => s.setV (fillRegs s.v 0 bs)

end Sys2Proof.Machine
end

