-- ==== Sys2Proof/Machine/Step.lean ====
section
/-! DEFINITION. One step of the machine: one cycle of spec/40_engine_cycle.md R90, or the stopped machine (R32, R186). -/

namespace Sys2Proof.Machine

/-- Steps 4 to 7 for a decoded instruction (R94 to R97). -/
def runInstr (i : Instr) (s : State) : Host.Outcome State Fault Refusal :=
  match exec i (advance s) with
  | .next t => .next (endCycle i t)
  | .fault f => .fault f
  | .refused r => .refused r

/-- One cycle of a running engine (R90): fetch, zero-word test, decode, then the instruction. -/
def cycle (s : State) : Host.Outcome State Fault Refusal :=
  match fetch s with
  | .error a => raise (.outOfBoundsAccess a) s
  | .ok w =>
    if haltsOn s.cfg w then .next (halt s)
    else
      match decodeWord s.cfg.strictLowNibble w with
      | .error _ => raise (.decodeError w) s
      | .ok i => runInstr i s

/-- One step. `Halted` and `Faulted` are absorbing (R186): a halted machine keeps its state, a faulted one has stopped with
its fault (log 8). -/
def step (s : State) : Host.Outcome State Fault Refusal :=
  match s.status with
  | .running => cycle s
  | .halted => .next s
  | .faulted f => .fault f

/-- `s` with the table word (its low `nbits` bits) stored where the next fetch reads and the engine running (log 13). -/
def State.withFetchWord (s : State) (nbits w : Nat) : State :=
  placeWord (BitVec.ofNat 16 (w % 2 ^ nbits)) s

end Sys2Proof.Machine
end

