-- ==== Sys2Proof/Safety.lean ====
section
/-! DEFINITION. The terms claims are stated in: the components of the state and what stays of them, the table of
spec/10_state.md R39, pixels, the audio commands, and what a legal state and a safe run are. -/

namespace Sys2Proof.Machine

/-! ## Components and frames -/

/-- One piece of the state, down to a single register, slot, byte or row. -/
inductive Component where
  | reg (r : Reg)
  | i
  | pc
  | dt
  | st
  | sp
  | slot (k : Fin 16)
  | byte (a : Nat)
  | row (r : Fin 32)
  | status
  | out
  | cfg
  | inputs
  | drawn
  | collabGone
  deriving DecidableEq, Repr

/-- The component holds in `t` what it held in `s`. -/
def Kept (s t : State) : Component → Prop
  | .reg r => t.reg r = s.reg r
  | .i => t.i = s.i
  | .pc => t.pc = s.pc
  | .dt => t.dt = s.dt
  | .st => t.st = s.st
  | .sp => t.sp = s.sp
  | .slot k => t.stack[k] = s.stack[k]
  | .byte a => t.mem.read a = s.mem.read a
  | .row r => t.fb[r] = s.fb[r]
  | .status => t.status = s.status
  | .out => t.out = s.out
  | .cfg => t.cfg = s.cfg
  | .inputs => t.inputs = s.inputs
  | .drawn => t.drawn = s.drawn
  | .collabGone => t.collabGone = s.collabGone

/-- Every component but those of the list is unchanged: all registers, all of memory, all rows, every special register. -/
def KeptBut (changed : List Component) (s t : State) : Prop := ∀ c, c ∉ changed → Kept s t c

/-- Every component but those of the list and the `n` bytes from address `a` is unchanged. -/
def KeptButBytes (changed : List Component) (a n : Nat) (s t : State) : Prop :=
  ∀ c, c ∉ changed → (∀ k < n, c ≠ .byte (a + k)) → Kept s t c

/-- Every component but those of the list and the rows of the framebuffer is unchanged. -/
def KeptButRows (changed : List Component) (s t : State) : Prop :=
  ∀ c, c ∉ changed → (∀ r, c ≠ .row r) → Kept s t c

/-! ## Which instruction may write what (R39) -/

/-- The "writes" column of R39 for an instruction executed in state `s`, with the commands of R200 under `out`: the pushed
slot, the stored bytes and the drawn rows are computed as the instruction computes them. `LD Vx,K` puts `pc` back while it is
held (R98), and a query that finds the collaborator gone notes it (R209). -/
def mayWrite (i : Instr) (s : State) (c : Component) : Bool :=
  match i with
  | .sys _ | .call _ =>
    match c with
    | .slot k => k.val == pushSlot s
    | c => c == .sp || c == .pc
  | .ret => c == .sp || c == .pc
  | .cls =>
    match c with
    | .row _ => true
    | c => c == .out
  | .jp _ | .jpV0 _ => c == .pc
  | .seImm _ _ | .sneImm _ _ | .seReg _ _ | .sneReg _ _ => c == .pc
  | .ldImm x _ | .addImm x _ | .rnd x _ | .ldVxDt x => c == .reg x
  | .ldReg x _ | .orReg x _ | .andReg x _ | .xorReg x _ => c == .reg x
  | .addReg x _ | .sub x _ | .subn x _ | .shr x _ | .shl x _ => c == .reg regF || c == .reg x
  | .ldI _ | .addI _ | .ldF _ => c == .i
  | .drw _ y n =>
    match c with
    | .row r => (List.range n.toNat).any fun k => r.val == ((s.reg y).toNat + k) % 32
    | c => c == .reg regF
  | .skp _ | .sknp _ => c == .pc || c == .out || c == .collabGone
  | .ldVxK x => c == .reg x || c == .pc || c == .out || c == .collabGone
  | .ldDtVx _ => c == .dt
  | .ldStVx _ => c == .st || c == .out
  | .ldB _ =>
    match c with
    | .byte a => decide (effectiveAddress s 0 ≤ a ∧ a ≤ effectiveAddress s 2)
    | _ => false
  | .storeRegs x =>
    match c with
    | .byte a => decide (effectiveAddress s 0 ≤ a ∧ a ≤ effectiveAddress s x.toNat)
    | _ => false
  | .loadRegs x =>
    match c with
    | .reg r => decide (r.toNat ≤ x.toNat)
    | _ => false

/-! ## Pixels (R31, R171) -/

/-- Pixel (column `c`, row `r`) is lit: bit `63 - c` of row `r` (R31). -/
def lit (s : State) (r : Fin 32) (c : Fin 64) : Bool := s.fb[r].getLsbD (63 - c.val)

/-- Does the sprite of `n` rows at memory address `a`, drawn with coordinates `vx`, `vy`, cover the pixel (column `c`, row
`r`) with a set bit? Row `i` of the sprite goes to row `(vy + i) mod 32`, its bit `7 - j` to column `(vx + j) mod 64`. -/
def spriteCovers (m : Memory) (a n : Nat) (vx vy : Byte) (r : Fin 32) (c : Fin 64) : Prop :=
  ∃ i < n, ∃ j < 8,
    r.val = (vy.toNat + i) % 32 ∧ c.val = (vx.toNat + j) % 64 ∧ (m.read (a + i)).getLsbD (7 - j) = true

/-! ## The stopped machine -/

/-- The status is a fault's mark (R181). -/
def State.isFaulted (s : State) : Bool :=
  match s.status with
  | .faulted _ => true
  | .running | .halted => false

/-- The final state of a successful run (R99). -/
def State.isFinal (s : State) : Bool := s.status == .halted

/-! ## Legal states -/

/-- The highest stack pointer a run reaches (R28; 16 without pre-increment, R110). -/
def maxSp (cfg : Config) : Nat := if cfg.stackPreincrement then 15 else 16

/-- The stack pointer names a slot or the empty stack (R28). -/
def SpLegal (s : State) : Prop := s.sp.toNat ≤ maxSp s.cfg

/-- Every value the program counter and the stack slots can hold (R25, R114). -/
def PcLegal (s : State) : Prop := s.pc.toNat ≤ 0x10FE ∧ ∀ k : Fin 16, s.stack[k].toNat ≤ 0x1000

/-- The audio commands of a command sequence, in order (R205). -/
def audioCommands (out : List Command) : List Bool :=
  out.filterMap fun c =>
    match c with
    | .setAudioEnabled b => some b
    | .requestRedraw _ | .clear | .isKeyPressed _ | .waitForKeyRelease => none

/-- The list alternates and begins with the given value. -/
def Alternates : Bool → List Bool → Prop
  | _, [] => True
  | b, c :: cs => c = b ∧ Alternates (!b) cs

/-- The audio commands alternate starting with `true`, and the last one agrees with the level `ST != 0` (R195, R205). -/
def AudioLegal (s : State) : Prop :=
  Alternates true (audioCommands s.out) ∧ s.audioOn = ((audioCommands s.out).getLast?).getD false

/-- The invariant of the machine: memory is in canonical form, and in a state that no fault has left unspecified the stack
pointer, the program counter, the stack slots and the audio commands are as the rules say. -/
def Inv (s : State) : Prop :=
  s.mem.wf ∧ (s.isFaulted = false → SpLegal s ∧ PcLegal s ∧ AudioLegal s)

/-! ## Safe runs -/

/-- `n` steps from `s` meet no fault and no refusal (R99, R181). -/
def SafeRun (n : Nat) (s : State) : Prop :=
  ∃ t, Sys2Proof.core.run n s = .next t ∧ State.isFaulted t = false

end Sys2Proof.Machine
end

