-- ==== Sys2Proof/Certificates/Slice0/Obligations.lean ====
section
/-! DEFINITION. The statements for the provers. Each says which rule of spec/ it formalises; the frames are in the terms of
Sys2Proof/Safety.lean (`KeptBut`, `KeptButBytes`, `KeptButRows`). -/

open Sys2Proof Sys2Proof.Machine

/-! ## Encoding (spec/30_encoding.md) -/

/-- Decoding what was encoded gives the instruction back, as a word and as the first two bytes of any byte stream, with the
low nibble of the register skips checked or not (R74, R76). -/
def Obligations.DecodeOfEncodeIsTheInstruction : Prop :=
  ∀ (strict : Bool) (i : Instr), WellFormed i = true →
    decodeWord strict (encode i) = .ok i ∧
    ∀ rest : List Byte, decodeBytes strict (encodeBytes i ++ rest) = .ok (i, rest)

/-- A word that decodes is the encoding of what it decodes to, and that is well formed: every word has one meaning (R74,
R76). -/
def Obligations.EncodeOfDecodeIsTheWord : Prop :=
  ∀ (w : Word) (i : Instr), decodeWord true w = .ok i → encode i = w ∧ WellFormed i = true

/-- The decoder selects a row of the opcode map exactly by its mask and match, with `CLS` and `RET` before `SYS` (R76). -/
def Obligations.DecoderFollowsTheOpcodeMap : Prop :=
  ∀ (i : Instr) (w : Word),
    (∃ j, decodeWord true w = .ok j ∧ rowMatch j = rowMatch i) ↔
      (w &&& rowMask i = rowMatch i ∧ (rowMatch i = 0x0000 → w ≠ 0x00E0 ∧ w ≠ 0x00EE))

/-- The words without an instruction are those of the table of illegal encodings, and the error names the word (R77, R78);
with the low nibble unchecked `5xyN` and `9xyN` are the register skips (R78). -/
def Obligations.IllegalWordsAreTheTabulatedOnes : Prop :=
  ∀ w : Word,
    (decodeWord true w = .error (.illegalWord w) ↔ isIllegal w = true) ∧
    (isIllegal w = false → ∃ i, decodeWord true w = .ok i) ∧
    (fieldOp w = 0x5 → decodeWord false w = .ok (.seReg (fieldX w) (fieldY w))) ∧
    (fieldOp w = 0x9 → decodeWord false w = .ok (.sneReg (fieldX w) (fieldY w)))

/-- A written-out word of every family, 0 to F, decodes to its instruction, and a word of no row is an error
(spec/95_test_vectors.md 2.1). -/
def Obligations.SpelledWordsDecode : Prop :=
  decodeWord true 0x00E1 = .ok (.sys 0x0E1) ∧ decodeWord true 0x00E0 = .ok .cls ∧
  decodeWord true 0x00EE = .ok .ret ∧ decodeWord true 0x1234 = .ok (.jp 0x234) ∧
  decodeWord true 0x2ABC = .ok (.call 0xABC) ∧ decodeWord true 0x3A42 = .ok (.seImm 10 0x42) ∧
  decodeWord true 0x4A42 = .ok (.sneImm 10 0x42) ∧ decodeWord true 0x5AB0 = .ok (.seReg 10 11) ∧
  decodeWord true 0x6A42 = .ok (.ldImm 10 0x42) ∧ decodeWord true 0x7A42 = .ok (.addImm 10 0x42) ∧
  decodeWord true 0x8AB7 = .ok (.subn 10 11) ∧ decodeWord true 0x9AB0 = .ok (.sneReg 10 11) ∧
  decodeWord true 0xA123 = .ok (.ldI 0x123) ∧ decodeWord true 0xB123 = .ok (.jpV0 0x123) ∧
  decodeWord true 0xCA0F = .ok (.rnd 10 0x0F) ∧ decodeWord true 0xDAB5 = .ok (.drw 10 11 5) ∧
  decodeWord true 0xEAA1 = .ok (.sknp 10) ∧ decodeWord true 0xFA65 = .ok (.loadRegs 10) ∧
  decodeWord true 0x5AB1 = .error (.illegalWord 0x5AB1)

/-! ## Control transfer (spec/41_control_flow.md) -/

/-- `JP addr` sets `pc` to the zero-extended address, `JP V0,addr` to the address plus `V0`, not reduced to 12 bits; nothing
else changes (R115, R122). -/
def Obligations.JumpsSetThePc : Prop :=
  ∀ (nnn : Addr12) (s : State),
    (decodeWord true (wordNNN 0x1 nnn) = .ok (.jp nnn) ∧
     ∃ t, exec (.jp nnn) s = .next t ∧ t.pc.toNat = nnn.toNat ∧ KeptBut [.pc] s t) ∧
    (decodeWord true (wordNNN 0xB nnn) = .ok (.jpV0 nnn) ∧
     ∃ t, exec (.jpV0 nnn) s = .next t ∧ t.pc.toNat = nnn.toNat + (s.reg reg0).toNat ∧ KeptBut [.pc] s t)

/-- `CALL addr` and `SYS addr` push the advanced `pc` and jump: with pre-increment into the slot above `SP`, without it into
the slot of `SP`; with no slot left they fault with `StackOverflow` (R110, R113, R116, R184). -/
def Obligations.CallsPushTheReturnAddress : Prop :=
  ∀ (nnn : Addr12) (s : State) (i : Instr), i = .sys nnn ∨ i = .call nnn →
    (∀ h : (if s.cfg.stackPreincrement then s.sp.toNat + 1 else s.sp.toNat) < 16,
      ∃ t, exec i s = .next t ∧ t.pc.toNat = nnn.toNat ∧ t.sp.toNat = s.sp.toNat + 1 ∧
        t.stack[if s.cfg.stackPreincrement then s.sp.toNat + 1 else s.sp.toNat] = s.pc ∧
        KeptBut [.pc, .sp, .slot ⟨if s.cfg.stackPreincrement then s.sp.toNat + 1 else s.sp.toNat, h⟩] s t) ∧
    (¬ (if s.cfg.stackPreincrement then s.sp.toNat + 1 else s.sp.toNat) < 16 →
      ∃ t, exec i s = .next t ∧ t.status = .faulted .stackOverflow)

/-- `RET` sets `pc` to the most recently pushed value and lowers `SP`, the slot keeping its value; with nothing pushed it
faults with `StackUnderflow` (R111, R114, R185). -/
def Obligations.ReturnPopsTheReturnAddress : Prop :=
  ∀ s : State,
    (s.sp ≠ 0 → ∀ h : (if s.cfg.stackPreincrement then s.sp.toNat else s.sp.toNat - 1) < 16,
      ∃ t, exec .ret s = .next t ∧
        t.pc = s.stack[if s.cfg.stackPreincrement then s.sp.toNat else s.sp.toNat - 1] ∧
        t.sp.toNat = s.sp.toNat - 1 ∧ KeptBut [.pc, .sp] s t) ∧
    (s.sp = 0 → ∃ t, exec .ret s = .next t ∧ t.status = .faulted .stackUnderflow)

/-- THE MODEL'S CHOICE (log 9): where `SP` names no slot, which R28 calls no legal value, `RET` pops a free value: `pc` is that
value, whatever it is, `SP` is lowered, and nothing else changes. -/
def Obligations.ReturnFromNoSlotPopsAFreeValue : Prop :=
  ∀ s : State, 16 ≤ (if s.cfg.stackPreincrement then s.sp.toNat else s.sp.toNat - 1) →
    ∃ t, exec .ret s = .next t ∧ t.pc = Config.freeSlot s.drawn ∧ t.sp.toNat = s.sp.toNat - 1 ∧ KeptBut [.pc, .sp] s t

/-- A call followed at once by a return is at the instruction after the call, with the stack pointer and everything but the
stack slots as before the call (R110, R111, R121). -/
def Obligations.CallThenReturnResumes : Prop :=
  ∀ (nnn : Addr12) (s : State) (i : Instr), i = .sys nnn ∨ i = .call nnn →
    (if s.cfg.stackPreincrement then s.sp.toNat + 1 else s.sp.toNat) < 16 →
    ∃ t u, exec i s = .next t ∧ exec .ret t = .next u ∧ ∀ c, (∀ k, c ≠ .slot k) → Kept s u c

/-- The four skips add 2 to the advanced `pc` exactly when their condition holds, and change nothing else (R112, R117 to
R120). -/
def Obligations.SkipsTestEquality : Prop :=
  ∀ (x y : Reg) (kk : Byte) (s : State),
    (decodeWord true (wordXKK 0x3 x kk) = .ok (.seImm x kk) ∧
     ∃ t, exec (.seImm x kk) s = .next t ∧ t.pc = (if s.reg x = kk then s.pc + 2 else s.pc) ∧ KeptBut [.pc] s t) ∧
    (decodeWord true (wordXKK 0x4 x kk) = .ok (.sneImm x kk) ∧
     ∃ t, exec (.sneImm x kk) s = .next t ∧ t.pc = (if s.reg x = kk then s.pc else s.pc + 2) ∧ KeptBut [.pc] s t) ∧
    (decodeWord true (wordXYN 0x5 x y 0) = .ok (.seReg x y) ∧
     ∃ t, exec (.seReg x y) s = .next t ∧ t.pc = (if s.reg x = s.reg y then s.pc + 2 else s.pc) ∧ KeptBut [.pc] s t) ∧
    (decodeWord true (wordXYN 0x9 x y 0) = .ok (.sneReg x y) ∧
     ∃ t, exec (.sneReg x y) s = .next t ∧ t.pc = (if s.reg x = s.reg y then s.pc else s.pc + 2) ∧ KeptBut [.pc] s t)

/-! ## Register loads, arithmetic, logic, shifts, random (spec/42_alu.md) -/

/-- The loads, `ADD Vx,byte` and the logic instructions write `Vx` alone; VF is not written unless it is `Vx` (R132 to
R137). -/
def Obligations.LoadsAndLogicWriteVxAlone : Prop :=
  ∀ (x y : Reg) (kk : Byte) (s : State),
    (decodeWord true (wordXKK 0x6 x kk) = .ok (.ldImm x kk) ∧
     ∃ t, exec (.ldImm x kk) s = .next t ∧ t.reg x = kk ∧ KeptBut [.reg x] s t) ∧
    (decodeWord true (wordXKK 0x7 x kk) = .ok (.addImm x kk) ∧
     ∃ t, exec (.addImm x kk) s = .next t ∧ (t.reg x).toNat = ((s.reg x).toNat + kk.toNat) % 256 ∧ KeptBut [.reg x] s t) ∧
    (decodeWord true (wordXYN 0x8 x y 0x0) = .ok (.ldReg x y) ∧
     ∃ t, exec (.ldReg x y) s = .next t ∧ t.reg x = s.reg y ∧ KeptBut [.reg x] s t) ∧
    (decodeWord true (wordXYN 0x8 x y 0x1) = .ok (.orReg x y) ∧
     ∃ t, exec (.orReg x y) s = .next t ∧ t.reg x = s.reg x ||| s.reg y ∧ KeptBut [.reg x] s t) ∧
    (decodeWord true (wordXYN 0x8 x y 0x2) = .ok (.andReg x y) ∧
     ∃ t, exec (.andReg x y) s = .next t ∧ t.reg x = s.reg x &&& s.reg y ∧ KeptBut [.reg x] s t) ∧
    (decodeWord true (wordXYN 0x8 x y 0x3) = .ok (.xorReg x y) ∧
     ∃ t, exec (.xorReg x y) s = .next t ∧ t.reg x = s.reg x ^^^ s.reg y ∧ KeptBut [.reg x] s t)

/-- `ADD Vx,Vy`: the low 8 bits of the sum in `Vx`, the carry in VF unless `Vx` is VF, which then holds the sum (R131,
R138). -/
def Obligations.AddSetsTheCarry : Prop :=
  ∀ (x y : Reg) (s : State),
    decodeWord true (wordXYN 0x8 x y 0x4) = .ok (.addReg x y) ∧
    ∃ t, exec (.addReg x y) s = .next t ∧
      (t.reg x).toNat = ((s.reg x).toNat + (s.reg y).toNat) % 256 ∧
      (x ≠ regF → t.reg regF = if (s.reg x).toNat + (s.reg y).toNat > 255 then 1 else 0) ∧
      KeptBut [.reg x, .reg regF] s t

/-- `SUB` and `SUBN`: the difference modulo 256 in `Vx`, the complement of the borrow in VF unless `Vx` is VF (R131, R139,
R141). -/
def Obligations.SubtractsSetNoBorrow : Prop :=
  ∀ (x y : Reg) (s : State),
    (decodeWord true (wordXYN 0x8 x y 0x5) = .ok (.sub x y) ∧
     ∃ t, exec (.sub x y) s = .next t ∧
       (t.reg x).toNat = (256 + (s.reg x).toNat - (s.reg y).toNat) % 256 ∧
       (x ≠ regF → t.reg regF = if (s.reg x).toNat ≥ (s.reg y).toNat then 1 else 0) ∧
       KeptBut [.reg x, .reg regF] s t) ∧
    (decodeWord true (wordXYN 0x8 x y 0x7) = .ok (.subn x y) ∧
     ∃ t, exec (.subn x y) s = .next t ∧
       (t.reg x).toNat = (256 + (s.reg y).toNat - (s.reg x).toNat) % 256 ∧
       (x ≠ regF → t.reg regF = if (s.reg y).toNat ≥ (s.reg x).toNat then 1 else 0) ∧
       KeptBut [.reg x, .reg regF] s t)

/-- `SHR` and `SHL` move the source register by one bit into `Vx`, the lost bit in VF unless `Vx` is VF; the source is `Vy`,
or `Vx` with SHIFT_SOURCE = Vx (R131, R140, R142). -/
def Obligations.ShiftsMoveTheSourceByOneBit : Prop :=
  ∀ (x y r : Reg) (s : State), r = (if s.cfg.shiftSource = .vy then y else x) →
    (decodeWord true (wordXYN 0x8 x y 0x6) = .ok (.shr x y) ∧
     ∃ t, exec (.shr x y) s = .next t ∧
       (t.reg x).toNat = (s.reg r).toNat / 2 ∧
       (x ≠ regF → (t.reg regF).toNat = (s.reg r).toNat % 2) ∧ KeptBut [.reg x, .reg regF] s t) ∧
    (decodeWord true (wordXYN 0x8 x y 0xE) = .ok (.shl x y) ∧
     ∃ t, exec (.shl x y) s = .next t ∧
       (t.reg x).toNat = 2 * (s.reg r).toNat % 256 ∧
       (x ≠ regF → (t.reg regF).toNat = (s.reg r).toNat / 128) ∧ KeptBut [.reg x, .reg regF] s t)

/-- `RND Vx,byte` writes the drawn byte masked with `kk`, always a submask of `kk`, and every byte can be drawn (R143). -/
def Obligations.RandomIsADrawnByteMasked : Prop :=
  ∀ (x : Reg) (kk : Byte) (s : State),
    decodeWord true (wordXKK 0xC x kk) = .ok (.rnd x kk) ∧
    (∃ t, exec (.rnd x kk) s = .next t ∧ t.reg x = s.draw.rnd &&& kk ∧ t.reg x &&& ~~~kk = 0 ∧ KeptBut [.reg x] s t) ∧
    ∀ r : Byte, ∃ d t, exec (.rnd x kk) { s with inputs := d :: s.inputs } = .next t ∧ t.reg x = r &&& kk

/-- The flag an instruction leaves in VF is 0x00 or 0x01: the five ALU instructions whose destination is not VF, and `DRW`
where it completes with the OR of the rows (R23). -/
def Obligations.FlagsAreZeroOrOne : Prop :=
  ∀ (x y : Reg) (n : Nibble) (s : State),
    (x ≠ regF → ∀ i ∈ [Instr.addReg x y, .sub x y, .subn x y, .shr x y, .shl x y],
      ∃ t, exec i s = .next t ∧ (t.reg regF = 0 ∨ t.reg regF = 1)) ∧
    (s.cfg.drwCollision = .orRows → ∀ t, exec (.drw x y n) s = .next t → t.isFaulted = false →
      t.reg regF = 0 ∨ t.reg regF = 1)

/-! ## Address register and memory (spec/43_index_memory.md) -/

/-- `LD I,addr`, `ADD I,Vx` and `LD F,Vx` write `I` alone: the address, the sum modulo 65536, five times the byte (R150 to
R152). -/
def Obligations.AddressRegisterWritesIAlone : Prop :=
  ∀ (nnn : Addr12) (x : Reg) (s : State),
    (decodeWord true (wordNNN 0xA nnn) = .ok (.ldI nnn) ∧
     ∃ t, exec (.ldI nnn) s = .next t ∧ t.i.toNat = nnn.toNat ∧ KeptBut [.i] s t) ∧
    (decodeWord true (wordXKK 0xF x 0x1E) = .ok (.addI x) ∧
     ∃ t, exec (.addI x) s = .next t ∧ t.i.toNat = (s.i.toNat + (s.reg x).toNat) % 65536 ∧ KeptBut [.i] s t) ∧
    (decodeWord true (wordXKK 0xF x 0x29) = .ok (.ldF x) ∧
     ∃ t, exec (.ldF x) s = .next t ∧ t.i.toNat = 5 * (s.reg x).toNat ∧ KeptBut [.i] s t)

/-- `LD B,Vx` writes the hundreds, tens and ones digits of `Vx` at `I`, `I + 1`, `I + 2`, always three bytes, and nothing
else (R153). -/
def Obligations.BcdStoresThreeDigits : Prop :=
  ∀ (x : Reg) (s : State), s.mem.wf → effectiveAddress s 2 ≤ 0xFFF →
    decodeWord true (wordXKK 0xF x 0x33) = .ok (.ldB x) ∧
    ∃ t, exec (.ldB x) s = .next t ∧
      (t.mem.read (effectiveAddress s 0)).toNat = (s.reg x).toNat / 100 ∧
      (t.mem.read (effectiveAddress s 1)).toNat = (s.reg x).toNat / 10 % 10 ∧
      (t.mem.read (effectiveAddress s 2)).toNat = (s.reg x).toNat % 10 ∧
      KeptButBytes [] (effectiveAddress s 0) 3 s t

/-- `LD [I],Vx` writes `V0` to `Vx` at `I` upward, `x + 1` bytes, and nothing else: `I` and every register stand (R155,
R156). -/
def Obligations.StoreRegsWritesTheBlock : Prop :=
  ∀ (x : Reg) (s : State), s.mem.wf → effectiveAddress s x.toNat ≤ 0xFFF →
    decodeWord true (wordXKK 0xF x 0x55) = .ok (.storeRegs x) ∧
    ∃ t, exec (.storeRegs x) s = .next t ∧
      (∀ k : Reg, k.toNat ≤ x.toNat → t.mem.read (effectiveAddress s k.toNat) = s.reg k) ∧
      KeptButBytes [] (effectiveAddress s 0) (x.toNat + 1) s t

/-- `LD Vx,[I]` loads `V0` to `Vx` from `I` upward and changes nothing else: `I`, memory and the registers above `x` stand
(R155, R157). -/
def Obligations.LoadRegsReadsTheBlock : Prop :=
  ∀ (x : Reg) (s : State), effectiveAddress s x.toNat ≤ 0xFFF →
    decodeWord true (wordXKK 0xF x 0x65) = .ok (.loadRegs x) ∧
    ∃ t, exec (.loadRegs x) s = .next t ∧
      (∀ k : Reg, k.toNat ≤ x.toNat → t.reg k = s.mem.read (effectiveAddress s k.toNat)) ∧
      ∀ c, (∀ k : Reg, k.toNat ≤ x.toNat → c ≠ .reg k) → Kept s t c

/-- An access above 0xFFF faults with the first such address, in the closed forms of R183: `LD B,Vx`, `LD [I],Vx`,
`LD Vx,[I]`, `DRW` with at least one row, and the fetch of a running engine (R56, R183). -/
def Obligations.OutOfRangeFaultsAtTheFirstAddress : Prop :=
  ∀ (x y : Reg) (n : Nibble) (s : State),
    (s.i.toNat + 2 > 0xFFF →
      ∃ t, exec (.ldB x) s = .next t ∧ t.status = .faulted (.outOfBoundsAccess (max s.i.toNat 0x1000))) ∧
    (s.i.toNat + x.toNat > 0xFFF →
      (∃ t, exec (.storeRegs x) s = .next t ∧ t.status = .faulted (.outOfBoundsAccess (max s.i.toNat 0x1000))) ∧
      ∃ t, exec (.loadRegs x) s = .next t ∧ t.status = .faulted (.outOfBoundsAccess (max s.i.toNat 0x1000))) ∧
    (n ≠ 0 → s.i.toNat + n.toNat - 1 > 0xFFF →
      ∃ t, exec (.drw x y n) s = .next t ∧ t.status = .faulted (.outOfBoundsAccess (max s.i.toNat 0x1000))) ∧
    (s.status = .running → s.pc.toNat ≥ 0xFFF →
      ∃ t, step s = .next t ∧ t.status = .faulted (.outOfBoundsAccess (max s.pc.toNat 0x1000)))

/-- Registers stored with `LD [I],Vx` and loaded again with `LD Vx,[I]`, whatever the registers hold by then, hold the stored
values (R155 to R157, R60). -/
def Obligations.StoreThenLoadRestores : Prop :=
  ∀ (x : Reg) (s : State), s.mem.wf → effectiveAddress s x.toNat ≤ 0xFFF →
    ∃ t, exec (.storeRegs x) s = .next t ∧
      ∀ v, ∃ u, exec (.loadRegs x) (t.setV v) = .next u ∧ ∀ k : Reg, k.toNat ≤ x.toNat → u.reg k = s.reg k

/-- A store is seen by the next fetch: two registers stored next to each other by `LD [I],Vx`, and two neighbouring digits
stored by `LD B,Vx`, are fetched as one big-endian word, whatever word was there before (R50, R65, R234). -/
def Obligations.StoredBytesAreFetched : Prop :=
  ∀ (x : Reg) (p : Word) (s : State), s.mem.wf →
    (∀ k : Reg, effectiveAddress s x.toNat ≤ 0xFFF → k.toNat < x.toNat → p.toNat = effectiveAddress s k.toNat →
      ∃ t, exec (.storeRegs x) s = .next t ∧ fetch (t.setPc p) = .ok (wordOfBytes (s.reg k) (s.reg (k + 1)))) ∧
    (effectiveAddress s 2 ≤ 0xFFF →
      ∃ t hundreds tens ones, exec (.ldB x) s = .next t ∧
        hundreds.toNat = (s.reg x).toNat / 100 ∧ tens.toNat = (s.reg x).toNat / 10 % 10 ∧
        ones.toNat = (s.reg x).toNat % 10 ∧
        (p.toNat = effectiveAddress s 0 → fetch (t.setPc p) = .ok (wordOfBytes hundreds tens)) ∧
        (p.toNat = effectiveAddress s 1 → fetch (t.setPc p) = .ok (wordOfBytes tens ones)))

/-! ## Keypad and timers (spec/44_keypad_timers.md, spec/60_exceptions.md) -/

/-- `SKP` and `SKNP` with a key number 0 to 15 emit the query and skip by the answer, a collaborator that is gone answering
"not pressed" and staying gone (log 7); nothing else changes (R160, R161, R163, R203, R209). -/
def Obligations.KeySkipsFollowTheAnswer : Prop :=
  ∀ (x : Reg) (s : State), (s.reg x).toNat ≤ 15 →
    (decodeWord true (wordXKK 0xE x 0x9E) = .ok (.skp x) ∧
     ∃ t k, exec (.skp x) s = .next t ∧ t.pc = (if s.keyAnswer = .down then s.pc + 2 else s.pc) ∧
       t.out = s.out ++ [.isKeyPressed k] ∧ k.toNat = (s.reg x).toNat ∧
       (t.collabGone = true ↔ s.collabGone = true ∨ s.keyAnswer = .unavailable) ∧
       KeptBut [.pc, .out, .collabGone] s t) ∧
    (decodeWord true (wordXKK 0xE x 0xA1) = .ok (.sknp x) ∧
     ∃ t k, exec (.sknp x) s = .next t ∧ t.pc = (if s.keyAnswer = .down then s.pc else s.pc + 2) ∧
       t.out = s.out ++ [.isKeyPressed k] ∧ k.toNat = (s.reg x).toNat ∧
       (t.collabGone = true ↔ s.collabGone = true ∨ s.keyAnswer = .unavailable) ∧
       KeptBut [.pc, .out, .collabGone] s t)

/-- A key index above 15 faults before any command is sent, recording the value; with KEY_OOR = not_pressed it is a key that
is not down and no command is sent (R163, R198). The fault is the spec's own addition (log 15), and that the commands sent
can be read after it is log 6. -/
def Obligations.KeyIndexAboveFifteen : Prop :=
  ∀ (x : Reg) (s : State), (s.reg x).toNat > 15 →
    (s.cfg.keyOor = .fault → ∀ i ∈ [Instr.skp x, .sknp x],
      ∃ t, exec i s = .next t ∧ t.status = .faulted (.keyIndexOutOfRange (s.reg x)) ∧ t.out = s.out) ∧
    (s.cfg.keyOor = .notPressed →
      (∃ t, exec (.skp x) s = .next t ∧ KeptBut [] s t) ∧
      ∃ t, exec (.sknp x) s = .next t ∧ t.pc = s.pc + 2 ∧ KeptBut [.pc] s t)

/-- `LD Vx,K` stores the released key, 0 to 15, and emits the wait; while no answer exists it is held, `pc` back at the
instruction and nothing else changed; with the collaborator gone it faults (R98, R164, R197, R204). THE MODEL'S READING:
that a held try emits no command (log 16), and that `collabGone` stands after the fault and records the loss (log 6,
log 7). -/
def Obligations.WaitForKeyStoresTheReleasedKey : Prop :=
  ∀ (x : Reg) (s : State),
    decodeWord true (wordXKK 0xF x 0x0A) = .ok (.ldVxK x) ∧
    (∀ k, s.releaseAnswer = .released k →
      ∃ t, exec (.ldVxK x) s = .next t ∧ (t.reg x).toNat = k.toNat ∧ t.out = s.out ++ [.waitForKeyRelease] ∧
        KeptBut [.reg x, .out] s t) ∧
    (s.releaseAnswer = .pending → ∃ t, exec (.ldVxK x) s = .next t ∧ t.pc + 2 = s.pc ∧ KeptBut [.pc] s t) ∧
    (s.releaseAnswer = .unavailable →
      ∃ t, exec (.ldVxK x) s = .next t ∧ t.status = .faulted .collaboratorUnavailable ∧ t.collabGone = true)

/-- `LD Vx,DT` and `LD DT,Vx` are plain transfers (R162, R166). -/
def Obligations.DelayTimerTransfers : Prop :=
  ∀ (x : Reg) (s : State),
    (decodeWord true (wordXKK 0xF x 0x07) = .ok (.ldVxDt x) ∧
     ∃ t, exec (.ldVxDt x) s = .next t ∧ t.reg x = s.dt ∧ KeptBut [.reg x] s t) ∧
    (decodeWord true (wordXKK 0xF x 0x15) = .ok (.ldDtVx x) ∧
     ∃ t, exec (.ldDtVx x) s = .next t ∧ t.dt = s.reg x ∧ KeptBut [.dt] s t)

/-- `LD ST,Vx` writes `ST` and emits `SetAudioEnabled` exactly when `ST` goes to or from zero (R167, R195, R205). -/
def Obligations.SoundTimerWriteEmitsTheEdge : Prop :=
  ∀ (x : Reg) (s : State),
    decodeWord true (wordXKK 0xF x 0x18) = .ok (.ldStVx x) ∧
    ∃ t, exec (.ldStVx x) s = .next t ∧ t.st = s.reg x ∧
      t.out = s.out ++
        (if s.st = 0 ∧ s.reg x ≠ 0 then [.setAudioEnabled true]
         else if s.st ≠ 0 ∧ s.reg x = 0 then [.setAudioEnabled false] else []) ∧
      KeptBut [.st, .out] s t

/-- The timer check: with no period elapsed nothing changes; otherwise both timers go down by one, floored at 0 (by the
periods elapsed with TIMER_CATCHUP), `SetAudioEnabled(false)` is emitted exactly when `ST` reaches zero, and nothing else
changes (R97, R192, R195). -/
def Obligations.TimerCheckDecrementsByTheTick : Prop :=
  ∀ (p : Nat) (s : State), p = (if s.cfg.timerCatchup then s.draw.periods else min 1 s.draw.periods) →
    (timerCheck s).dt.toNat = s.dt.toNat - p ∧ (timerCheck s).st.toNat = s.st.toNat - p ∧
    (timerCheck s).out = s.out ++ (if s.st ≠ 0 ∧ s.st.toNat ≤ p then [.setAudioEnabled false] else []) ∧
    KeptBut [.dt, .st, .out] s (timerCheck s)

/-- After `m` decrements each timer is what it was less `m`, floored at 0: it never wraps (R193). -/
def Obligations.TimersDecayToZero : Prop :=
  ∀ (m : Nat) (s : State),
    (timerDecrement^[m] s).dt.toNat = s.dt.toNat - m ∧ (timerDecrement^[m] s).st.toNat = s.st.toNat - m

/-! ## Display (spec/45_display.md) -/

/-- `CLS` unlights every pixel, emits `Clear()` and changes nothing else; VF is not written (R170). -/
def Obligations.ClearUnlightsEveryPixel : Prop :=
  ∀ s : State,
    decodeWord true 0x00E0 = .ok .cls ∧
    ∃ t, exec .cls s = .next t ∧ (∀ r c, lit t r c = false) ∧ t.out = s.out ++ [.clear] ∧ KeptButRows [.out] s t

/-- `DRW Vx,Vy,n`, pixel by pixel: a pixel changes exactly when the sprite, wrapped at every edge, covers it with a set bit;
VF is 1 exactly when some lit pixel was turned off, over all rows, else 0; nothing else changes (R171 to R174). -/
def Obligations.DrawIsThePixelwiseXor : Prop :=
  ∀ (x y : Reg) (n : Nibble) (s : State), (n = 0 ∨ effectiveAddress s (n.toNat - 1) ≤ 0xFFF) →
    decodeWord true (wordXYN 0xD x y n) = .ok (.drw x y n) ∧
    ∃ t, exec (.drw x y n) s = .next t ∧
      (∀ r c, lit t r c = true ↔
        ¬ (lit s r c = true ↔ spriteCovers s.mem (effectiveAddress s 0) n.toNat (s.reg x) (s.reg y) r c)) ∧
      (s.cfg.drwCollision = .orRows →
        (t.reg regF = 1 ∧ ∃ r c, lit s r c = true ∧ lit t r c = false) ∨
        (t.reg regF = 0 ∧ ∀ r c, lit s r c = true → lit t r c = true)) ∧
      KeptButRows [.reg regF] s t

/-- With DRW_COLLISION = last_row VF tells of the last row alone, and a sprite of no rows leaves VF (R173). -/
def Obligations.DrawWithLastRowCollision : Prop :=
  ∀ (x y : Reg) (n : Nibble) (s : State), s.cfg.drwCollision = .lastRow →
    (n = 0 ∨ effectiveAddress s (n.toNat - 1) ≤ 0xFFF) →
    ∃ t, exec (.drw x y n) s = .next t ∧
      (n = 0 → KeptBut [] s t) ∧
      (n ≠ 0 → ∀ r : Fin 32, r.val = ((s.reg y).toNat + (n.toNat - 1)) % 32 →
        (t.reg regF = 1 ∧ ∃ c, lit s r c = true ∧ lit t r c = false) ∨
        (t.reg regF = 0 ∧ ∀ c, lit s r c = true → lit t r c = true))

/-- Drawing the same sprite twice at the same place, whatever the registers hold by then but for the two coordinates, restores
every pixel, with either setting of DRW_COLLISION and any `x` and `y` (R172). THE MODEL'S READING (log 14) of when the second
draw collides, by R172 and R173 and not by the inference R174(h): exactly when the sprite covers a pixel that was unlit before
the first draw; with the last row's collision, such a pixel of the last row. -/
def Obligations.DrawTwiceRestoresTheScreen : Prop :=
  ∀ (x y : Reg) (n : Nibble) (s : State), (n = 0 ∨ effectiveAddress s (n.toNat - 1) ≤ 0xFFF) →
    ∃ t, exec (.drw x y n) s = .next t ∧
      ∀ v, (t.setV v).reg x = s.reg x → (t.setV v).reg y = s.reg y →
        ∃ u, exec (.drw x y n) (t.setV v) = .next u ∧ u.fb = s.fb ∧
          (s.cfg.drwCollision = .orRows →
            (u.reg regF = 1 ↔ ∃ r c, lit s r c = false ∧
              spriteCovers s.mem (effectiveAddress s 0) n.toNat (s.reg x) (s.reg y) r c)) ∧
          (s.cfg.drwCollision = .lastRow → n ≠ 0 →
            (u.reg regF = 1 ↔ ∃ r c, r.val = ((s.reg y).toNat + (n.toNat - 1)) % 32 ∧ lit s r c = false ∧
              spriteCovers s.mem (effectiveAddress s 0) n.toNat (s.reg x) (s.reg y) r c))

/-! ## The cycle, halting and faults (spec/40_engine_cycle.md, spec/60_exceptions.md) -/

/-- A running engine whose bytes at `pc` decode to an instruction runs it with `pc` advanced by 2, and then ends the cycle
(R90, R94, R95). -/
def Obligations.StepRunsTheDecodedInstruction : Prop :=
  ∀ (i : Instr) (s : State), s.status = .running → s.pc.toNat + 1 ≤ 0xFFF →
    (s.cfg.zeroWordHalts = false ∨ wordOfBytes (s.mem.read s.pc.toNat) (s.mem.read (s.pc.toNat + 1)) ≠ 0) →
    decodeWord s.cfg.strictLowNibble (wordOfBytes (s.mem.read s.pc.toNat) (s.mem.read (s.pc.toNat + 1))) = .ok i →
    step s =
      match exec i (s.setPc (s.pc + 2)) with
      | .next t => .next (endCycle i t)
      | .fault f => .fault f
      | .refused r => .refused r

/-- How a cycle ends: `RequestRedraw` after `DRW` and no other instruction, then the timer check, then the draw is used up; a
cycle that faulted stops at once; a held cycle only uses up the draw (R96 to R98, R100). THE MODEL'S CHOICE: that a
completed and a held cycle use up a draw (log 5), and that the command records the framebuffer (log 10). -/
def Obligations.CycleEndsWithRedrawAndTimerCheck : Prop :=
  ∀ (i : Instr) (s : State),
    (s.status = .running → (∀ x, i = .ldVxK x → s.releaseAnswer ≠ .pending) →
      (∀ x y n, i = .drw x y n → endCycle i s = (timerCheck (s.emit (.requestRedraw s.fb))).nextDraw) ∧
      ((∀ x y n, i ≠ .drw x y n) → endCycle i s = (timerCheck s).nextDraw)) ∧
    (∀ f, s.status = .faulted f → (∀ x, i = .ldVxK x → s.releaseAnswer ≠ .pending) → endCycle i s = s) ∧
    (∀ x, i = .ldVxK x → s.releaseAnswer = .pending → endCycle i s = s.nextDraw)

/-- The zero word halts the engine successfully and nothing else changes: `pc` stays at the word (R92). -/
def Obligations.ZeroWordHalts : Prop :=
  ∀ s : State, s.status = .running → s.cfg.zeroWordHalts = true → s.pc.toNat + 1 ≤ 0xFFF →
    s.mem.read s.pc.toNat = 0 → s.mem.read (s.pc.toNat + 1) = 0 →
    ∃ t, step s = .next t ∧ t.status = .halted ∧ KeptBut [.status] s t

/-- A word that decodes to no instruction faults with the word recorded: each of the illegal words of R77, and with the low
nibble unchecked those of the families 8, E and F (R77, R78, R93, R182). -/
def Obligations.IllegalWordFaults : Prop :=
  ∀ (w : Word) (s : State), s.status = .running → s.pc.toNat + 1 ≤ 0xFFF →
    w = wordOfBytes (s.mem.read s.pc.toNat) (s.mem.read (s.pc.toNat + 1)) → isIllegal w = true →
    (s.cfg.strictLowNibble = true ∨ fieldOp w ∈ [0x8, 0xE, 0xF]) →
    ∃ t, step s = .next t ∧ t.status = .faulted (.decodeError w)

/-- A fault writes the status and leaves nothing of the architectural state: what it leaves is the same for any two states
that agree on the parameters, the environment and the commands sent; the fault is then reported and no cycle runs (R181,
R186). THE MODEL'S READING: that these four survive (log 6), and that a faulted machine reports by answering its fault
(log 8). -/
def Obligations.FaultLeavesOnlyItsMark : Prop :=
  ∀ (f : Fault) (s s' : State),
    (∃ t, raise f s = .next t ∧ t.status = .faulted f ∧ t.out = s.out ∧ step t = .fault f) ∧
    (s'.out = s.out → s'.cfg = s.cfg → s'.inputs = s.inputs → s'.drawn = s.drawn → s'.collabGone = s.collabGone →
      raise f s' = raise f s)

/-- A stopped machine stays stopped: any number of steps leaves a halted machine as it is, and every step of a faulted one
answers its fault (R32, R186). THE MODEL'S CHOICE: how a stopped machine answers a step (log 8). -/
def Obligations.StoppedMachineStaysStopped : Prop :=
  ∀ (s : State) (n : Nat),
    (s.status = .halted → Sys2Proof.core.run n s = .next s) ∧
    (∀ f, s.status = .faulted f → Sys2Proof.core.run (n + 1) s = .fault f)

/-- A held engine is in the state before the cycle: a step uses up a draw and changes nothing else, the timers and the
commands included (R98, R164, R194). THE MODEL'S CHOICE: that the try uses up
a draw (log 5), and that it emits no command, `WaitForKeyRelease` coming with the answer (log 16). -/
def Obligations.HeldEngineStandsStill : Prop :=
  ∀ (x : Reg) (s : State), s.status = .running → s.pc.toNat + 1 ≤ 0xFFF →
    wordOfBytes (s.mem.read s.pc.toNat) (s.mem.read (s.pc.toNat + 1)) = wordXKK 0xF x 0x0A →
    s.releaseAnswer = .pending →
    ∃ t, step s = .next t ∧ t.inputs = s.inputs.tail ∧ t.drawn = s.drawn + 1 ∧ KeptBut [.inputs, .drawn] s t

/-- Each instruction raises at most its own kind of fault, and the others raise none (R180, R189). -/
def Obligations.EachInstructionRaisesItsOwnFault : Prop :=
  ∀ (i : Instr) (s t : State) (f : Fault), s.isFaulted = false → exec i s = .next t → t.status = .faulted f →
    (f = .stackOverflow ∧ ∃ nnn, i = .sys nnn ∨ i = .call nnn) ∨
    (f = .stackUnderflow ∧ i = .ret) ∨
    ((∃ a, f = .outOfBoundsAccess a ∧ 0xFFF < a) ∧
      ((∃ x, i = .ldB x ∨ i = .storeRegs x ∨ i = .loadRegs x) ∨ ∃ x y n, i = .drw x y n)) ∨
    (f = .collaboratorUnavailable ∧ ∃ x, i = .ldVxK x) ∨
    (∃ x, f = .keyIndexOutOfRange (s.reg x) ∧ 15 < (s.reg x).toNat ∧ (i = .skp x ∨ i = .sknp x))

/-- Every instruction answers a next state from every state: none is refused, and a fault is taken, not a stop (R95,
R181). -/
def Obligations.EveryInstructionAnswers : Prop := ∀ (i : Instr) (s : State), ∃ t, exec i s = .next t

/-! ## Reset (spec/70_reset_and_hazards.md) -/

/-- The reset values with no ROM: `pc` 0x200, `SP` 0 and `status` running; `I`, `DT`, `ST`, the registers, the stack slots and
the framebuffer at the zeros the spec decides (D6; log 1); the 80 bytes of the font table of R36, from general knowledge
(log 3, PRESUMED), at 0x000 to 0x04F and zero above (log 2, DESIGN CHOICE) (R36 to R38). -/
def Obligations.ResetValues : Prop :=
  State.reset.pc = 0x0200 ∧ State.reset.status = .running ∧ State.reset.sp = 0 ∧ State.reset.i = 0 ∧
  State.reset.dt = 0 ∧ State.reset.st = 0 ∧ State.reset.out = [] ∧ State.reset.audioOn = false ∧
  (∀ r, State.reset.reg r = 0) ∧ (∀ k : Fin 16, State.reset.stack[k] = 0) ∧ (∀ r c, lit State.reset r c = false) ∧
  (∀ a ≤ 0x4F, State.reset.mem.read a = defaultFont.getD a 0) ∧ (∀ a, 0x50 ≤ a → State.reset.mem.read a = 0) ∧
  defaultFont =
    [0xF0, 0x90, 0x90, 0x90, 0xF0] ++ [0x20, 0x60, 0x20, 0x20, 0x70] ++ [0xF0, 0x10, 0xF0, 0x80, 0xF0] ++
    [0xF0, 0x10, 0xF0, 0x10, 0xF0] ++ [0x90, 0x90, 0xF0, 0x10, 0x10] ++ [0xF0, 0x80, 0xF0, 0x10, 0xF0] ++
    [0xF0, 0x80, 0xF0, 0x90, 0xF0] ++ [0xF0, 0x10, 0x20, 0x40, 0x40] ++ [0xF0, 0x90, 0xF0, 0x90, 0xF0] ++
    [0xF0, 0x90, 0xF0, 0x10, 0xF0] ++ [0xF0, 0x90, 0xF0, 0x90, 0x90] ++ [0xE0, 0x90, 0xE0, 0x90, 0xE0] ++
    [0xF0, 0x80, 0x80, 0x80, 0xF0] ++ [0xE0, 0x90, 0x90, 0x90, 0xE0] ++ [0xF0, 0x80, 0xF0, 0x80, 0xF0] ++
    [0xF0, 0x80, 0xF0, 0x80, 0x80]

/-- Reset with a FONT of 80 bytes and a ROM of at most 3584: the memory image of R37 and every register at its reset value;
with another FONT or a longer ROM there is no reset state (R37, R220, R222). -/
def Obligations.BootBuildsTheMemoryImage : Prop :=
  ∀ (cfg : Config) (font rom : List Byte),
    (font.length = 80 → rom.length ≤ 3584 →
      ∃ s, State.boot cfg font rom = some s ∧ s.mem.wf ∧ s.cfg = cfg ∧
        (∀ a ≤ 0xFFF, s.mem.read a =
          if a ≤ 0x4F then font.getD a 0
          else if 0x200 ≤ a ∧ a < 0x200 + rom.length then rom.getD (a - 0x200) 0 else 0) ∧
        ∀ c, c ≠ .cfg → (∀ a, c ≠ .byte a) → Kept State.reset s c) ∧
    (font.length ≠ 80 ∨ rom.length > 3584 → State.boot cfg font rom = none)

/-- A word placed where the next fetch reads is the next instruction executed (log 13; R50, R90). -/
def Obligations.PlacedWordRunsNext : Prop :=
  ∀ (w : Word) (i : Instr) (s : State), s.mem.wf → s.pc.toNat + 1 ≤ 0xFFF → w ≠ 0 →
    decodeWord s.cfg.strictLowNibble w = .ok i →
    step (s.withFetchWord 16 w.toNat) = runInstr i (s.withFetchWord 16 w.toNat) ∧
    KeptButBytes [.status] s.pc.toNat 2 s (s.withFetchWord 16 w.toNat)

/-! ## Invariants and whole-machine rules -/

/-- The reset state meets the invariant. -/
def Obligations.ResetMeetsTheInvariant : Prop := Inv State.reset

/-- Every step keeps the invariant: memory canonical, and, unless a fault has left the state unspecified, the stack pointer
legal, `pc` and the stack slots within the bounds of R25 and R114, the audio commands alternating from `true` and agreeing
with `ST` (R25, R28, R114, R195, R205). -/
def Obligations.EveryStepKeepsTheInvariant : Prop :=
  ∀ s t : State, Inv s → step s = .next t → Inv t

/-- Everything the machine can do is modelled: no run is refused, whatever state it begins in, and a run answers a fault only
where some state it passed through had already taken it (R99, R181, R186). THE MODEL'S CHOICE: that a faulted machine
answers its fault at the next step (log 8). -/
def Obligations.NoRunIsRefused : Prop :=
  ∀ (s : State) (n : Nat),
    (∀ r, Sys2Proof.core.run n s ≠ .refused r) ∧
    ∀ f, Sys2Proof.core.run n s = .fault f ↔ ∃ k < n, ∃ t : State, Sys2Proof.core.run k s = .next t ∧ t.status = .faulted f

/-- An instruction that does not fault writes only what the table of R39 lets it write, executed in state `s`: a call the
stack slot it pushes to, `LD B,Vx` the bytes at `I` to `I + 2`, `LD [I],Vx` those at `I` to `I + x`, `DRW` the rows it draws;
every other register, flag, byte of memory, stack slot, timer, row and field of the model stands (R23, R24, R26 to R31,
R39). -/
def Obligations.OnlyTheListedWritersWrite : Prop :=
  ∀ (i : Instr) (s t : State) (c : Component), exec i s = .next t → t.isFaulted = false → mayWrite i s c = false →
    Kept s t c

/-- No step changes the parameters (R34), takes back a command (R35), or brings the collaborator back (R209). -/
def Obligations.StepsOnlyAddToTheRecord : Prop :=
  ∀ s t : State, step s = .next t →
    t.cfg = s.cfg ∧ (∃ cs, t.out = s.out ++ cs) ∧ (s.collabGone = true → t.collabGone = true)

/-- A program cannot observe the sound timer or the commands: two machines that differ in these alone take steps that differ
in these alone (R27, R168). -/
def Obligations.SoundTimerIsNotObservable : Prop :=
  ∀ (s t : State) (b : Byte) (cs : List Command), step s = .next t →
    ∃ t', step { s with st := b, out := cs } = .next t' ∧ KeptBut [.st, .out] t t'
end

