-- ==== Sys2Proof/Laws/Decode.lean ====
section
/-! SUPPORT. The fields of the three word formats, and what the decoder's helpers answer (spec/30_encoding.md R71, R72). -/

namespace Sys2Proof

theorem toNat_append_eq (m n : Nat) (a : BitVec m) (b : BitVec n) : (a ++ b).toNat = a.toNat * 2 ^ n + b.toNat := by
  rw [BitVec.toNat_append, Nat.shiftLeft_eq, Nat.mul_comm, ← Nat.two_pow_add_eq_or_of_lt b.isLt]

theorem toNat_append3_eq (m n p : Nat) (a : BitVec m) (b : BitVec n) (c : BitVec p) :
    (a ++ b ++ c).toNat = (a.toNat * 2 ^ n + b.toNat) * 2 ^ p + c.toNat := by
  rw [toNat_append_eq, toNat_append_eq]

theorem toNat_append4_eq (m n p q : Nat) (a : BitVec m) (b : BitVec n) (c : BitVec p) (d : BitVec q) :
    (a ++ b ++ c ++ d).toNat = ((a.toNat * 2 ^ n + b.toNat) * 2 ^ p + c.toNat) * 2 ^ q + d.toNat := by
  rw [toNat_append_eq, toNat_append3_eq]

/-! ## The word formats as numbers (R72) -/

theorem wordNNN_toNat (op : BitVec 4) (nnn : Addr12) : (wordNNN op nnn).toNat = op.toNat * 4096 + nnn.toNat :=
  toNat_append_eq 4 12 op nnn

theorem wordXKK_toNat (op : BitVec 4) (x : Reg) (kk : Byte) :
    (wordXKK op x kk).toNat = op.toNat * 4096 + x.toNat * 256 + kk.toNat :=
  (toNat_append3_eq 4 4 8 op x kk).trans (by omega)

theorem wordXYN_toNat (op : BitVec 4) (x y : Reg) (n : Nibble) :
    (wordXYN op x y n).toNat = op.toNat * 4096 + x.toNat * 256 + y.toNat * 16 + n.toNat :=
  (toNat_append4_eq 4 4 4 4 op x y n).trans (by omega)

/-! ## The fields as numbers (R71) -/

theorem fieldOp_toNat (w : Word) : (fieldOp w).toNat = w.toNat / 4096 := by
  have := w.isLt
  rw [fieldOp, BitVec.extractLsb'_toNat, Nat.shiftRight_eq_div_pow]
  omega

theorem fieldX_toNat (w : Word) : (fieldX w).toNat = w.toNat / 256 % 16 := by
  rw [fieldX, BitVec.extractLsb'_toNat, Nat.shiftRight_eq_div_pow]

theorem fieldY_toNat (w : Word) : (fieldY w).toNat = w.toNat / 16 % 16 := by
  rw [fieldY, BitVec.extractLsb'_toNat, Nat.shiftRight_eq_div_pow]

theorem fieldN_toNat (w : Word) : (fieldN w).toNat = w.toNat % 16 := by
  rw [fieldN, BitVec.extractLsb'_toNat, Nat.shiftRight_eq_div_pow]
  omega

theorem fieldKK_toNat (w : Word) : (fieldKK w).toNat = w.toNat % 256 := by
  rw [fieldKK, BitVec.extractLsb'_toNat, Nat.shiftRight_eq_div_pow]
  omega

theorem fieldNNN_toNat (w : Word) : (fieldNNN w).toNat = w.toNat % 4096 := by
  rw [fieldNNN, BitVec.extractLsb'_toNat, Nat.shiftRight_eq_div_pow]
  omega

/-! ## The fields of each format -/

section fields
variable (op : BitVec 4) (x y : Reg) (n : Nibble) (kk : Byte) (nnn : Addr12)

@[simp] theorem fieldOp_wordNNN : fieldOp (wordNNN op nnn) = op := by
  apply BitVec.eq_of_toNat_eq
  rw [fieldOp_toNat, wordNNN_toNat]
  have := nnn.isLt
  omega

@[simp] theorem fieldNNN_wordNNN : fieldNNN (wordNNN op nnn) = nnn := by
  apply BitVec.eq_of_toNat_eq
  rw [fieldNNN_toNat, wordNNN_toNat]
  have := nnn.isLt
  omega

@[simp] theorem fieldOp_wordXKK : fieldOp (wordXKK op x kk) = op := by
  apply BitVec.eq_of_toNat_eq
  rw [fieldOp_toNat, wordXKK_toNat]
  have := x.isLt
  have := kk.isLt
  omega

@[simp] theorem fieldX_wordXKK : fieldX (wordXKK op x kk) = x := by
  apply BitVec.eq_of_toNat_eq
  rw [fieldX_toNat, wordXKK_toNat]
  have := x.isLt
  have := kk.isLt
  omega

@[simp] theorem fieldKK_wordXKK : fieldKK (wordXKK op x kk) = kk := by
  apply BitVec.eq_of_toNat_eq
  rw [fieldKK_toNat, wordXKK_toNat]
  have := kk.isLt
  omega

@[simp] theorem fieldOp_wordXYN : fieldOp (wordXYN op x y n) = op := by
  apply BitVec.eq_of_toNat_eq
  rw [fieldOp_toNat, wordXYN_toNat]
  have := x.isLt
  have := y.isLt
  have := n.isLt
  omega

@[simp] theorem fieldX_wordXYN : fieldX (wordXYN op x y n) = x := by
  apply BitVec.eq_of_toNat_eq
  rw [fieldX_toNat, wordXYN_toNat]
  have := x.isLt
  have := y.isLt
  have := n.isLt
  omega

@[simp] theorem fieldY_wordXYN : fieldY (wordXYN op x y n) = y := by
  apply BitVec.eq_of_toNat_eq
  rw [fieldY_toNat, wordXYN_toNat]
  have := y.isLt
  have := n.isLt
  omega

@[simp] theorem fieldN_wordXYN : fieldN (wordXYN op x y n) = n := by
  apply BitVec.eq_of_toNat_eq
  rw [fieldN_toNat, wordXYN_toNat]
  have := n.isLt
  omega

end fields

/-- The two bytes of a word put together are the word (R50). -/
@[simp] theorem wordOfBytes_bytesOfWord (w : Word) : wordOfBytes (bytesOfWord w).1 (bytesOfWord w).2 = w := by
  apply BitVec.eq_of_toNat_eq
  have h : (wordOfBytes (bytesOfWord w).1 (bytesOfWord w).2).toNat =
      (bytesOfWord w).1.toNat * 256 + (bytesOfWord w).2.toNat := toNat_append_eq 8 8 _ _
  have h1 : (bytesOfWord w).1.toNat = w.toNat / 256 % 256 := by
    rw [bytesOfWord, BitVec.extractLsb'_toNat, Nat.shiftRight_eq_div_pow]
  have h2 : (bytesOfWord w).2.toNat = w.toNat % 256 := by
    rw [bytesOfWord, BitVec.extractLsb'_toNat, Nat.shiftRight_eq_div_pow]
    omega
  have := w.isLt
  omega

/-- A word of format NNN is its fields (R72). -/
theorem wordNNN_fields (w : Word) : wordNNN (fieldOp w) (fieldNNN w) = w := by
  apply BitVec.eq_of_toNat_eq
  rw [wordNNN_toNat, fieldOp_toNat, fieldNNN_toNat]
  omega

/-- A word of format XKK is its fields (R72). -/
theorem wordXKK_fields (w : Word) : wordXKK (fieldOp w) (fieldX w) (fieldKK w) = w := by
  apply BitVec.eq_of_toNat_eq
  rw [wordXKK_toNat, fieldOp_toNat, fieldX_toNat, fieldKK_toNat]
  omega

/-- A word of format XYN is its fields (R72). -/
theorem wordXYN_fields (w : Word) : wordXYN (fieldOp w) (fieldX w) (fieldY w) (fieldN w) = w := by
  apply BitVec.eq_of_toNat_eq
  rw [wordXYN_toNat, fieldOp_toNat, fieldX_toNat, fieldY_toNat, fieldN_toNat]
  omega

end Sys2Proof
end

