-- ==== Sys2Proof/Laws/State.lean ====
section
/-! SUPPORT. One lemma per field per update of State, all by definition, so that no later proof unfolds a record update;
then the register file and the draws under each update. -/

namespace Sys2Proof.Machine.State

/-! ## setReg -/

@[simp] theorem setReg_v (s : State) (x : Reg) (b : Byte) : (s.setReg x b).v = s.v.set x.toNat b x.isLt := rfl
@[simp] theorem setReg_i (s : State) (x : Reg) (b : Byte) : (s.setReg x b).i = s.i := rfl
@[simp] theorem setReg_pc (s : State) (x : Reg) (b : Byte) : (s.setReg x b).pc = s.pc := rfl
@[simp] theorem setReg_dt (s : State) (x : Reg) (b : Byte) : (s.setReg x b).dt = s.dt := rfl
@[simp] theorem setReg_st (s : State) (x : Reg) (b : Byte) : (s.setReg x b).st = s.st := rfl
@[simp] theorem setReg_sp (s : State) (x : Reg) (b : Byte) : (s.setReg x b).sp = s.sp := rfl
@[simp] theorem setReg_stack (s : State) (x : Reg) (b : Byte) : (s.setReg x b).stack = s.stack := rfl
@[simp] theorem setReg_mem (s : State) (x : Reg) (b : Byte) : (s.setReg x b).mem = s.mem := rfl
@[simp] theorem setReg_fb (s : State) (x : Reg) (b : Byte) : (s.setReg x b).fb = s.fb := rfl
@[simp] theorem setReg_status (s : State) (x : Reg) (b : Byte) : (s.setReg x b).status = s.status := rfl
@[simp] theorem setReg_out (s : State) (x : Reg) (b : Byte) : (s.setReg x b).out = s.out := rfl
@[simp] theorem setReg_cfg (s : State) (x : Reg) (b : Byte) : (s.setReg x b).cfg = s.cfg := rfl
@[simp] theorem setReg_inputs (s : State) (x : Reg) (b : Byte) : (s.setReg x b).inputs = s.inputs := rfl
@[simp] theorem setReg_drawn (s : State) (x : Reg) (b : Byte) : (s.setReg x b).drawn = s.drawn := rfl
@[simp] theorem setReg_collabGone (s : State) (x : Reg) (b : Byte) : (s.setReg x b).collabGone = s.collabGone := rfl

/-! ## setI -/

@[simp] theorem setI_v (s : State) (w : Word) : (s.setI w).v = s.v := rfl
@[simp] theorem setI_i (s : State) (w : Word) : (s.setI w).i = w := rfl
@[simp] theorem setI_pc (s : State) (w : Word) : (s.setI w).pc = s.pc := rfl
@[simp] theorem setI_dt (s : State) (w : Word) : (s.setI w).dt = s.dt := rfl
@[simp] theorem setI_st (s : State) (w : Word) : (s.setI w).st = s.st := rfl
@[simp] theorem setI_sp (s : State) (w : Word) : (s.setI w).sp = s.sp := rfl
@[simp] theorem setI_stack (s : State) (w : Word) : (s.setI w).stack = s.stack := rfl
@[simp] theorem setI_mem (s : State) (w : Word) : (s.setI w).mem = s.mem := rfl
@[simp] theorem setI_fb (s : State) (w : Word) : (s.setI w).fb = s.fb := rfl
@[simp] theorem setI_status (s : State) (w : Word) : (s.setI w).status = s.status := rfl
@[simp] theorem setI_out (s : State) (w : Word) : (s.setI w).out = s.out := rfl
@[simp] theorem setI_cfg (s : State) (w : Word) : (s.setI w).cfg = s.cfg := rfl
@[simp] theorem setI_inputs (s : State) (w : Word) : (s.setI w).inputs = s.inputs := rfl
@[simp] theorem setI_drawn (s : State) (w : Word) : (s.setI w).drawn = s.drawn := rfl
@[simp] theorem setI_collabGone (s : State) (w : Word) : (s.setI w).collabGone = s.collabGone := rfl

/-! ## setPc -/

@[simp] theorem setPc_v (s : State) (w : Word) : (s.setPc w).v = s.v := rfl
@[simp] theorem setPc_i (s : State) (w : Word) : (s.setPc w).i = s.i := rfl
@[simp] theorem setPc_pc (s : State) (w : Word) : (s.setPc w).pc = w := rfl
@[simp] theorem setPc_dt (s : State) (w : Word) : (s.setPc w).dt = s.dt := rfl
@[simp] theorem setPc_st (s : State) (w : Word) : (s.setPc w).st = s.st := rfl
@[simp] theorem setPc_sp (s : State) (w : Word) : (s.setPc w).sp = s.sp := rfl
@[simp] theorem setPc_stack (s : State) (w : Word) : (s.setPc w).stack = s.stack := rfl
@[simp] theorem setPc_mem (s : State) (w : Word) : (s.setPc w).mem = s.mem := rfl
@[simp] theorem setPc_fb (s : State) (w : Word) : (s.setPc w).fb = s.fb := rfl
@[simp] theorem setPc_status (s : State) (w : Word) : (s.setPc w).status = s.status := rfl
@[simp] theorem setPc_out (s : State) (w : Word) : (s.setPc w).out = s.out := rfl
@[simp] theorem setPc_cfg (s : State) (w : Word) : (s.setPc w).cfg = s.cfg := rfl
@[simp] theorem setPc_inputs (s : State) (w : Word) : (s.setPc w).inputs = s.inputs := rfl
@[simp] theorem setPc_drawn (s : State) (w : Word) : (s.setPc w).drawn = s.drawn := rfl
@[simp] theorem setPc_collabGone (s : State) (w : Word) : (s.setPc w).collabGone = s.collabGone := rfl

/-! ## setDt -/

@[simp] theorem setDt_v (s : State) (b : Byte) : (s.setDt b).v = s.v := rfl
@[simp] theorem setDt_i (s : State) (b : Byte) : (s.setDt b).i = s.i := rfl
@[simp] theorem setDt_pc (s : State) (b : Byte) : (s.setDt b).pc = s.pc := rfl
@[simp] theorem setDt_dt (s : State) (b : Byte) : (s.setDt b).dt = b := rfl
@[simp] theorem setDt_st (s : State) (b : Byte) : (s.setDt b).st = s.st := rfl
@[simp] theorem setDt_sp (s : State) (b : Byte) : (s.setDt b).sp = s.sp := rfl
@[simp] theorem setDt_stack (s : State) (b : Byte) : (s.setDt b).stack = s.stack := rfl
@[simp] theorem setDt_mem (s : State) (b : Byte) : (s.setDt b).mem = s.mem := rfl
@[simp] theorem setDt_fb (s : State) (b : Byte) : (s.setDt b).fb = s.fb := rfl
@[simp] theorem setDt_status (s : State) (b : Byte) : (s.setDt b).status = s.status := rfl
@[simp] theorem setDt_out (s : State) (b : Byte) : (s.setDt b).out = s.out := rfl
@[simp] theorem setDt_cfg (s : State) (b : Byte) : (s.setDt b).cfg = s.cfg := rfl
@[simp] theorem setDt_inputs (s : State) (b : Byte) : (s.setDt b).inputs = s.inputs := rfl
@[simp] theorem setDt_drawn (s : State) (b : Byte) : (s.setDt b).drawn = s.drawn := rfl
@[simp] theorem setDt_collabGone (s : State) (b : Byte) : (s.setDt b).collabGone = s.collabGone := rfl

/-! ## setSt -/

@[simp] theorem setSt_v (s : State) (b : Byte) : (s.setSt b).v = s.v := rfl
@[simp] theorem setSt_i (s : State) (b : Byte) : (s.setSt b).i = s.i := rfl
@[simp] theorem setSt_pc (s : State) (b : Byte) : (s.setSt b).pc = s.pc := rfl
@[simp] theorem setSt_dt (s : State) (b : Byte) : (s.setSt b).dt = s.dt := rfl
@[simp] theorem setSt_st (s : State) (b : Byte) : (s.setSt b).st = b := rfl
@[simp] theorem setSt_sp (s : State) (b : Byte) : (s.setSt b).sp = s.sp := rfl
@[simp] theorem setSt_stack (s : State) (b : Byte) : (s.setSt b).stack = s.stack := rfl
@[simp] theorem setSt_mem (s : State) (b : Byte) : (s.setSt b).mem = s.mem := rfl
@[simp] theorem setSt_fb (s : State) (b : Byte) : (s.setSt b).fb = s.fb := rfl
@[simp] theorem setSt_status (s : State) (b : Byte) : (s.setSt b).status = s.status := rfl
@[simp] theorem setSt_out (s : State) (b : Byte) : (s.setSt b).out = s.out := rfl
@[simp] theorem setSt_cfg (s : State) (b : Byte) : (s.setSt b).cfg = s.cfg := rfl
@[simp] theorem setSt_inputs (s : State) (b : Byte) : (s.setSt b).inputs = s.inputs := rfl
@[simp] theorem setSt_drawn (s : State) (b : Byte) : (s.setSt b).drawn = s.drawn := rfl
@[simp] theorem setSt_collabGone (s : State) (b : Byte) : (s.setSt b).collabGone = s.collabGone := rfl

/-! ## setMem -/

@[simp] theorem setMem_v (s : State) (m : Memory) : (s.setMem m).v = s.v := rfl
@[simp] theorem setMem_i (s : State) (m : Memory) : (s.setMem m).i = s.i := rfl
@[simp] theorem setMem_pc (s : State) (m : Memory) : (s.setMem m).pc = s.pc := rfl
@[simp] theorem setMem_dt (s : State) (m : Memory) : (s.setMem m).dt = s.dt := rfl
@[simp] theorem setMem_st (s : State) (m : Memory) : (s.setMem m).st = s.st := rfl
@[simp] theorem setMem_sp (s : State) (m : Memory) : (s.setMem m).sp = s.sp := rfl
@[simp] theorem setMem_stack (s : State) (m : Memory) : (s.setMem m).stack = s.stack := rfl
@[simp] theorem setMem_mem (s : State) (m : Memory) : (s.setMem m).mem = m := rfl
@[simp] theorem setMem_fb (s : State) (m : Memory) : (s.setMem m).fb = s.fb := rfl
@[simp] theorem setMem_status (s : State) (m : Memory) : (s.setMem m).status = s.status := rfl
@[simp] theorem setMem_out (s : State) (m : Memory) : (s.setMem m).out = s.out := rfl
@[simp] theorem setMem_cfg (s : State) (m : Memory) : (s.setMem m).cfg = s.cfg := rfl
@[simp] theorem setMem_inputs (s : State) (m : Memory) : (s.setMem m).inputs = s.inputs := rfl
@[simp] theorem setMem_drawn (s : State) (m : Memory) : (s.setMem m).drawn = s.drawn := rfl
@[simp] theorem setMem_collabGone (s : State) (m : Memory) : (s.setMem m).collabGone = s.collabGone := rfl

/-! ## setFb -/

@[simp] theorem setFb_v (s : State) (fb : Framebuffer) : (s.setFb fb).v = s.v := rfl
@[simp] theorem setFb_i (s : State) (fb : Framebuffer) : (s.setFb fb).i = s.i := rfl
@[simp] theorem setFb_pc (s : State) (fb : Framebuffer) : (s.setFb fb).pc = s.pc := rfl
@[simp] theorem setFb_dt (s : State) (fb : Framebuffer) : (s.setFb fb).dt = s.dt := rfl
@[simp] theorem setFb_st (s : State) (fb : Framebuffer) : (s.setFb fb).st = s.st := rfl
@[simp] theorem setFb_sp (s : State) (fb : Framebuffer) : (s.setFb fb).sp = s.sp := rfl
@[simp] theorem setFb_stack (s : State) (fb : Framebuffer) : (s.setFb fb).stack = s.stack := rfl
@[simp] theorem setFb_mem (s : State) (fb : Framebuffer) : (s.setFb fb).mem = s.mem := rfl
@[simp] theorem setFb_fb (s : State) (fb : Framebuffer) : (s.setFb fb).fb = fb := rfl
@[simp] theorem setFb_status (s : State) (fb : Framebuffer) : (s.setFb fb).status = s.status := rfl
@[simp] theorem setFb_out (s : State) (fb : Framebuffer) : (s.setFb fb).out = s.out := rfl
@[simp] theorem setFb_cfg (s : State) (fb : Framebuffer) : (s.setFb fb).cfg = s.cfg := rfl
@[simp] theorem setFb_inputs (s : State) (fb : Framebuffer) : (s.setFb fb).inputs = s.inputs := rfl
@[simp] theorem setFb_drawn (s : State) (fb : Framebuffer) : (s.setFb fb).drawn = s.drawn := rfl
@[simp] theorem setFb_collabGone (s : State) (fb : Framebuffer) : (s.setFb fb).collabGone = s.collabGone := rfl

/-! ## setStatus -/

@[simp] theorem setStatus_v (s : State) (q : Status) : (s.setStatus q).v = s.v := rfl
@[simp] theorem setStatus_i (s : State) (q : Status) : (s.setStatus q).i = s.i := rfl
@[simp] theorem setStatus_pc (s : State) (q : Status) : (s.setStatus q).pc = s.pc := rfl
@[simp] theorem setStatus_dt (s : State) (q : Status) : (s.setStatus q).dt = s.dt := rfl
@[simp] theorem setStatus_st (s : State) (q : Status) : (s.setStatus q).st = s.st := rfl
@[simp] theorem setStatus_sp (s : State) (q : Status) : (s.setStatus q).sp = s.sp := rfl
@[simp] theorem setStatus_stack (s : State) (q : Status) : (s.setStatus q).stack = s.stack := rfl
@[simp] theorem setStatus_mem (s : State) (q : Status) : (s.setStatus q).mem = s.mem := rfl
@[simp] theorem setStatus_fb (s : State) (q : Status) : (s.setStatus q).fb = s.fb := rfl
@[simp] theorem setStatus_status (s : State) (q : Status) : (s.setStatus q).status = q := rfl
@[simp] theorem setStatus_out (s : State) (q : Status) : (s.setStatus q).out = s.out := rfl
@[simp] theorem setStatus_cfg (s : State) (q : Status) : (s.setStatus q).cfg = s.cfg := rfl
@[simp] theorem setStatus_inputs (s : State) (q : Status) : (s.setStatus q).inputs = s.inputs := rfl
@[simp] theorem setStatus_drawn (s : State) (q : Status) : (s.setStatus q).drawn = s.drawn := rfl
@[simp] theorem setStatus_collabGone (s : State) (q : Status) : (s.setStatus q).collabGone = s.collabGone := rfl

/-! ## setV -/

@[simp] theorem setV_v (s : State) (v : Vector Byte 16) : (s.setV v).v = v := rfl
@[simp] theorem setV_i (s : State) (v : Vector Byte 16) : (s.setV v).i = s.i := rfl
@[simp] theorem setV_pc (s : State) (v : Vector Byte 16) : (s.setV v).pc = s.pc := rfl
@[simp] theorem setV_dt (s : State) (v : Vector Byte 16) : (s.setV v).dt = s.dt := rfl
@[simp] theorem setV_st (s : State) (v : Vector Byte 16) : (s.setV v).st = s.st := rfl
@[simp] theorem setV_sp (s : State) (v : Vector Byte 16) : (s.setV v).sp = s.sp := rfl
@[simp] theorem setV_stack (s : State) (v : Vector Byte 16) : (s.setV v).stack = s.stack := rfl
@[simp] theorem setV_mem (s : State) (v : Vector Byte 16) : (s.setV v).mem = s.mem := rfl
@[simp] theorem setV_fb (s : State) (v : Vector Byte 16) : (s.setV v).fb = s.fb := rfl
@[simp] theorem setV_status (s : State) (v : Vector Byte 16) : (s.setV v).status = s.status := rfl
@[simp] theorem setV_out (s : State) (v : Vector Byte 16) : (s.setV v).out = s.out := rfl
@[simp] theorem setV_cfg (s : State) (v : Vector Byte 16) : (s.setV v).cfg = s.cfg := rfl
@[simp] theorem setV_inputs (s : State) (v : Vector Byte 16) : (s.setV v).inputs = s.inputs := rfl
@[simp] theorem setV_drawn (s : State) (v : Vector Byte 16) : (s.setV v).drawn = s.drawn := rfl
@[simp] theorem setV_collabGone (s : State) (v : Vector Byte 16) : (s.setV v).collabGone = s.collabGone := rfl

/-! ## setStack -/

@[simp] theorem setStack_v (s : State) (p : Byte) (k : Vector Word 16) : (s.setStack p k).v = s.v := rfl
@[simp] theorem setStack_i (s : State) (p : Byte) (k : Vector Word 16) : (s.setStack p k).i = s.i := rfl
@[simp] theorem setStack_pc (s : State) (p : Byte) (k : Vector Word 16) : (s.setStack p k).pc = s.pc := rfl
@[simp] theorem setStack_dt (s : State) (p : Byte) (k : Vector Word 16) : (s.setStack p k).dt = s.dt := rfl
@[simp] theorem setStack_st (s : State) (p : Byte) (k : Vector Word 16) : (s.setStack p k).st = s.st := rfl
@[simp] theorem setStack_sp (s : State) (p : Byte) (k : Vector Word 16) : (s.setStack p k).sp = p := rfl
@[simp] theorem setStack_stack (s : State) (p : Byte) (k : Vector Word 16) : (s.setStack p k).stack = k := rfl
@[simp] theorem setStack_mem (s : State) (p : Byte) (k : Vector Word 16) : (s.setStack p k).mem = s.mem := rfl
@[simp] theorem setStack_fb (s : State) (p : Byte) (k : Vector Word 16) : (s.setStack p k).fb = s.fb := rfl
@[simp] theorem setStack_status (s : State) (p : Byte) (k : Vector Word 16) : (s.setStack p k).status = s.status := rfl
@[simp] theorem setStack_out (s : State) (p : Byte) (k : Vector Word 16) : (s.setStack p k).out = s.out := rfl
@[simp] theorem setStack_cfg (s : State) (p : Byte) (k : Vector Word 16) : (s.setStack p k).cfg = s.cfg := rfl
@[simp] theorem setStack_inputs (s : State) (p : Byte) (k : Vector Word 16) : (s.setStack p k).inputs = s.inputs := rfl
@[simp] theorem setStack_drawn (s : State) (p : Byte) (k : Vector Word 16) : (s.setStack p k).drawn = s.drawn := rfl
@[simp] theorem setStack_collabGone (s : State) (p : Byte) (k : Vector Word 16) : (s.setStack p k).collabGone = s.collabGone := rfl

/-! ## emit -/

@[simp] theorem emit_v (s : State) (c : Command) : (s.emit c).v = s.v := rfl
@[simp] theorem emit_i (s : State) (c : Command) : (s.emit c).i = s.i := rfl
@[simp] theorem emit_pc (s : State) (c : Command) : (s.emit c).pc = s.pc := rfl
@[simp] theorem emit_dt (s : State) (c : Command) : (s.emit c).dt = s.dt := rfl
@[simp] theorem emit_st (s : State) (c : Command) : (s.emit c).st = s.st := rfl
@[simp] theorem emit_sp (s : State) (c : Command) : (s.emit c).sp = s.sp := rfl
@[simp] theorem emit_stack (s : State) (c : Command) : (s.emit c).stack = s.stack := rfl
@[simp] theorem emit_mem (s : State) (c : Command) : (s.emit c).mem = s.mem := rfl
@[simp] theorem emit_fb (s : State) (c : Command) : (s.emit c).fb = s.fb := rfl
@[simp] theorem emit_status (s : State) (c : Command) : (s.emit c).status = s.status := rfl
@[simp] theorem emit_out (s : State) (c : Command) : (s.emit c).out = s.out ++ [c] := rfl
@[simp] theorem emit_cfg (s : State) (c : Command) : (s.emit c).cfg = s.cfg := rfl
@[simp] theorem emit_inputs (s : State) (c : Command) : (s.emit c).inputs = s.inputs := rfl
@[simp] theorem emit_drawn (s : State) (c : Command) : (s.emit c).drawn = s.drawn := rfl
@[simp] theorem emit_collabGone (s : State) (c : Command) : (s.emit c).collabGone = s.collabGone := rfl

/-! ## loseCollaborator -/

@[simp] theorem loseCollaborator_v (s : State) : (s.loseCollaborator).v = s.v := rfl
@[simp] theorem loseCollaborator_i (s : State) : (s.loseCollaborator).i = s.i := rfl
@[simp] theorem loseCollaborator_pc (s : State) : (s.loseCollaborator).pc = s.pc := rfl
@[simp] theorem loseCollaborator_dt (s : State) : (s.loseCollaborator).dt = s.dt := rfl
@[simp] theorem loseCollaborator_st (s : State) : (s.loseCollaborator).st = s.st := rfl
@[simp] theorem loseCollaborator_sp (s : State) : (s.loseCollaborator).sp = s.sp := rfl
@[simp] theorem loseCollaborator_stack (s : State) : (s.loseCollaborator).stack = s.stack := rfl
@[simp] theorem loseCollaborator_mem (s : State) : (s.loseCollaborator).mem = s.mem := rfl
@[simp] theorem loseCollaborator_fb (s : State) : (s.loseCollaborator).fb = s.fb := rfl
@[simp] theorem loseCollaborator_status (s : State) : (s.loseCollaborator).status = s.status := rfl
@[simp] theorem loseCollaborator_out (s : State) : (s.loseCollaborator).out = s.out := rfl
@[simp] theorem loseCollaborator_cfg (s : State) : (s.loseCollaborator).cfg = s.cfg := rfl
@[simp] theorem loseCollaborator_inputs (s : State) : (s.loseCollaborator).inputs = s.inputs := rfl
@[simp] theorem loseCollaborator_drawn (s : State) : (s.loseCollaborator).drawn = s.drawn := rfl
@[simp] theorem loseCollaborator_collabGone (s : State) : (s.loseCollaborator).collabGone = true := rfl

/-! ## nextDraw -/

@[simp] theorem nextDraw_v (s : State) : (s.nextDraw).v = s.v := rfl
@[simp] theorem nextDraw_i (s : State) : (s.nextDraw).i = s.i := rfl
@[simp] theorem nextDraw_pc (s : State) : (s.nextDraw).pc = s.pc := rfl
@[simp] theorem nextDraw_dt (s : State) : (s.nextDraw).dt = s.dt := rfl
@[simp] theorem nextDraw_st (s : State) : (s.nextDraw).st = s.st := rfl
@[simp] theorem nextDraw_sp (s : State) : (s.nextDraw).sp = s.sp := rfl
@[simp] theorem nextDraw_stack (s : State) : (s.nextDraw).stack = s.stack := rfl
@[simp] theorem nextDraw_mem (s : State) : (s.nextDraw).mem = s.mem := rfl
@[simp] theorem nextDraw_fb (s : State) : (s.nextDraw).fb = s.fb := rfl
@[simp] theorem nextDraw_status (s : State) : (s.nextDraw).status = s.status := rfl
@[simp] theorem nextDraw_out (s : State) : (s.nextDraw).out = s.out := rfl
@[simp] theorem nextDraw_cfg (s : State) : (s.nextDraw).cfg = s.cfg := rfl
@[simp] theorem nextDraw_inputs (s : State) : (s.nextDraw).inputs = s.inputs.tail := rfl
@[simp] theorem nextDraw_drawn (s : State) : (s.nextDraw).drawn = s.drawn + 1 := rfl
@[simp] theorem nextDraw_collabGone (s : State) : (s.nextDraw).collabGone = s.collabGone := rfl

/-! ## The register file under each update -/

/-- A register after a register write: the written one, every other as before (R22). -/
@[simp] theorem setReg_reg (s : State) (x y : Reg) (b : Byte) :
    (s.setReg x b).reg y = if y = x then b else s.reg y := by
  simp only [reg, setReg_v, Vector.getElem_set, BitVec.toNat_inj]
  split <;> split <;> simp_all

@[simp] theorem setI_reg (s : State) (w : Word) (y : Reg) : (s.setI w).reg y = s.reg y := rfl
@[simp] theorem setPc_reg (s : State) (w : Word) (y : Reg) : (s.setPc w).reg y = s.reg y := rfl
@[simp] theorem setDt_reg (s : State) (b : Byte) (y : Reg) : (s.setDt b).reg y = s.reg y := rfl
@[simp] theorem setSt_reg (s : State) (b : Byte) (y : Reg) : (s.setSt b).reg y = s.reg y := rfl
@[simp] theorem setMem_reg (s : State) (m : Memory) (y : Reg) : (s.setMem m).reg y = s.reg y := rfl
@[simp] theorem setFb_reg (s : State) (fb : Framebuffer) (y : Reg) : (s.setFb fb).reg y = s.reg y := rfl
@[simp] theorem setStatus_reg (s : State) (q : Status) (y : Reg) : (s.setStatus q).reg y = s.reg y := rfl
@[simp] theorem setStack_reg (s : State) (p : Byte) (k : Vector Word 16) (y : Reg) : (s.setStack p k).reg y = s.reg y := rfl
@[simp] theorem emit_reg (s : State) (c : Command) (y : Reg) : (s.emit c).reg y = s.reg y := rfl
@[simp] theorem loseCollaborator_reg (s : State) (y : Reg) : (s.loseCollaborator).reg y = s.reg y := rfl
@[simp] theorem nextDraw_reg (s : State) (y : Reg) : (s.nextDraw).reg y = s.reg y := rfl

/-! ## The environment's draws under each update -/

@[simp] theorem setReg_draw (s : State) (x : Reg) (b : Byte) : (s.setReg x b).draw = s.draw := rfl
@[simp] theorem setReg_keyAnswer (s : State) (x : Reg) (b : Byte) : (s.setReg x b).keyAnswer = s.keyAnswer := rfl
@[simp] theorem setReg_releaseAnswer (s : State) (x : Reg) (b : Byte) : (s.setReg x b).releaseAnswer = s.releaseAnswer := rfl
@[simp] theorem setI_draw (s : State) (w : Word) : (s.setI w).draw = s.draw := rfl
@[simp] theorem setI_keyAnswer (s : State) (w : Word) : (s.setI w).keyAnswer = s.keyAnswer := rfl
@[simp] theorem setI_releaseAnswer (s : State) (w : Word) : (s.setI w).releaseAnswer = s.releaseAnswer := rfl
@[simp] theorem setPc_draw (s : State) (w : Word) : (s.setPc w).draw = s.draw := rfl
@[simp] theorem setPc_keyAnswer (s : State) (w : Word) : (s.setPc w).keyAnswer = s.keyAnswer := rfl
@[simp] theorem setPc_releaseAnswer (s : State) (w : Word) : (s.setPc w).releaseAnswer = s.releaseAnswer := rfl
@[simp] theorem setDt_draw (s : State) (b : Byte) : (s.setDt b).draw = s.draw := rfl
@[simp] theorem setDt_keyAnswer (s : State) (b : Byte) : (s.setDt b).keyAnswer = s.keyAnswer := rfl
@[simp] theorem setDt_releaseAnswer (s : State) (b : Byte) : (s.setDt b).releaseAnswer = s.releaseAnswer := rfl
@[simp] theorem setSt_draw (s : State) (b : Byte) : (s.setSt b).draw = s.draw := rfl
@[simp] theorem setSt_keyAnswer (s : State) (b : Byte) : (s.setSt b).keyAnswer = s.keyAnswer := rfl
@[simp] theorem setSt_releaseAnswer (s : State) (b : Byte) : (s.setSt b).releaseAnswer = s.releaseAnswer := rfl
@[simp] theorem setMem_draw (s : State) (m : Memory) : (s.setMem m).draw = s.draw := rfl
@[simp] theorem setMem_keyAnswer (s : State) (m : Memory) : (s.setMem m).keyAnswer = s.keyAnswer := rfl
@[simp] theorem setMem_releaseAnswer (s : State) (m : Memory) : (s.setMem m).releaseAnswer = s.releaseAnswer := rfl
@[simp] theorem setFb_draw (s : State) (fb : Framebuffer) : (s.setFb fb).draw = s.draw := rfl
@[simp] theorem setFb_keyAnswer (s : State) (fb : Framebuffer) : (s.setFb fb).keyAnswer = s.keyAnswer := rfl
@[simp] theorem setFb_releaseAnswer (s : State) (fb : Framebuffer) : (s.setFb fb).releaseAnswer = s.releaseAnswer := rfl
@[simp] theorem setStatus_draw (s : State) (q : Status) : (s.setStatus q).draw = s.draw := rfl
@[simp] theorem setStatus_keyAnswer (s : State) (q : Status) : (s.setStatus q).keyAnswer = s.keyAnswer := rfl
@[simp] theorem setStatus_releaseAnswer (s : State) (q : Status) : (s.setStatus q).releaseAnswer = s.releaseAnswer := rfl
@[simp] theorem setV_draw (s : State) (v : Vector Byte 16) : (s.setV v).draw = s.draw := rfl
@[simp] theorem setV_keyAnswer (s : State) (v : Vector Byte 16) : (s.setV v).keyAnswer = s.keyAnswer := rfl
@[simp] theorem setV_releaseAnswer (s : State) (v : Vector Byte 16) : (s.setV v).releaseAnswer = s.releaseAnswer := rfl
@[simp] theorem setStack_draw (s : State) (p : Byte) (k : Vector Word 16) : (s.setStack p k).draw = s.draw := rfl
@[simp] theorem setStack_keyAnswer (s : State) (p : Byte) (k : Vector Word 16) : (s.setStack p k).keyAnswer = s.keyAnswer := rfl
@[simp] theorem setStack_releaseAnswer (s : State) (p : Byte) (k : Vector Word 16) : (s.setStack p k).releaseAnswer = s.releaseAnswer := rfl
@[simp] theorem emit_draw (s : State) (c : Command) : (s.emit c).draw = s.draw := rfl
@[simp] theorem emit_keyAnswer (s : State) (c : Command) : (s.emit c).keyAnswer = s.keyAnswer := rfl
@[simp] theorem emit_releaseAnswer (s : State) (c : Command) : (s.emit c).releaseAnswer = s.releaseAnswer := rfl
@[simp] theorem loseCollaborator_draw (s : State) : (s.loseCollaborator).draw = s.draw := rfl

/-- A collaborator that is gone answers no wait (R209). -/
@[simp] theorem loseCollaborator_releaseAnswer (s : State) : s.loseCollaborator.releaseAnswer = .unavailable := rfl

/-- A collaborator that is gone answers no query (R209). -/
@[simp] theorem loseCollaborator_keyAnswer (s : State) : s.loseCollaborator.keyAnswer = .unavailable := rfl

/-- Two states with the same fields are one state. -/
theorem eq_of_reg_eq {s t : State} (h : ∀ r, s.reg r = t.reg r) : s.v = t.v := by
  apply Vector.ext
  intro k hk
  have := h (BitVec.ofNat 4 k)
  simpa [reg, Nat.mod_eq_of_lt hk] using this

end Sys2Proof.Machine.State
end

