-- ==== Sys2Proof/Laws/Frame.lean ====
section
/-! SUPPORT. The frame of each register update in the terms of Sys2Proof/Safety.lean (spec/10_state.md R39). -/

namespace Sys2Proof.Machine

theorem keptBut_refl (l : List Component) (s : State) : KeptBut l s s := by
  intro c _
  cases c <;> rfl

theorem keptBut_setReg (s : State) (x : Reg) (b : Byte) : KeptBut [.reg x] s (s.setReg x b) := by
  intro c hc
  cases c <;> simp_all [Kept]

theorem keptBut_setI (s : State) (w : Word) : KeptBut [.i] s (s.setI w) := by
  intro c hc
  cases c <;> simp_all [Kept]

theorem keptBut_setPc (s : State) (w : Word) : KeptBut [.pc] s (s.setPc w) := by
  intro c hc
  cases c <;> simp_all [Kept]

theorem keptBut_setDt (s : State) (b : Byte) : KeptBut [.dt] s (s.setDt b) := by
  intro c hc
  cases c <;> simp_all [Kept]

theorem keptBut_skipIf (q : Bool) (s : State) : KeptBut [.pc] s (skipIf q s) := by
  unfold skipIf skip
  split
  · exact keptBut_setPc _ _
  · exact keptBut_refl _ _

theorem keptBut_writeFlagged (s : State) (x : Reg) (f : Bool) (b : Byte) :
    KeptBut [.reg x, .reg regF] s (writeFlagged s x f b) := by
  intro c hc
  cases c <;> simp_all [Kept, writeFlagged]

/-- The result register of a flag-setting instruction holds the result, also when it is VF (R131). -/
theorem writeFlagged_result (s : State) (x : Reg) (f : Bool) (b : Byte) : (writeFlagged s x f b).reg x = b := by
  simp [writeFlagged]

/-- VF holds the flag when it is not the destination (R131). -/
theorem writeFlagged_flag (s : State) (x : Reg) (f : Bool) (b : Byte) (h : x ≠ regF) :
    (writeFlagged s x f b).reg regF = flagByte f := by
  unfold writeFlagged
  rw [State.setReg_reg, if_neg (fun e => h e.symm), State.setReg_reg, if_pos rfl]

/-- The collision flag is written to VF and nowhere else (R172). -/
theorem keptBut_writeCollision (n : Nibble) (q : Bool) (s : State) : KeptBut [.reg regF] s (writeCollision n q s) := by
  unfold writeCollision
  split
  · exact keptBut_setReg _ _ _
  · split
    · exact keptBut_refl _ _
    · exact keptBut_setReg _ _ _

@[simp] theorem writeCollision_fb (n : Nibble) (q : Bool) (s : State) : (writeCollision n q s).fb = s.fb := by
  unfold writeCollision
  split
  · rfl
  · split <;> rfl

end Sys2Proof.Machine
end

