-- ==== Sys2Proof/Laws/Memory.lean ====
section
/-! SUPPORT. The laws of memory: read after write, the canonical form is kept by every operation and makes equal memories
equal lists, and what a block access does in one lemma each (spec/20_memory.md R55, R56, R60). -/

namespace Sys2Proof.Machine.Memory

/-- What a memory in canonical form lists lies above an address that is below all of it. -/
theorem read_unlisted {m : Memory} {a : Nat} (h : ∀ c ∈ m, c.1 ≠ a) : m.read a = unlisted a := by
  induction m with
  | nil => rfl
  | cons c m ih =>
    have hc := h c (by simp)
    simp only [read, hc, if_false]
    exact ih fun d hd => h d (by simp [hd])

theorem cons_read_same (a : Nat) (b : Byte) (m : Memory) (h : ∀ c ∈ m, a < c.1) : (cons a b m).read a = b := by
  unfold cons
  split
  · next hb => rw [read_unlisted fun c hc => (h c hc).ne', hb]
  · simp [read]

theorem cons_read_other {a a' : Nat} (b : Byte) (m : Memory) (h : a' ≠ a) : (cons a b m).read a' = m.read a' := by
  unfold cons
  split
  · rfl
  · simp [read, h.symm]

/-- A write leaves every other address alone (R60). -/
theorem read_write_other (m : Memory) {a a' : Nat} (b : Byte) (h : a' ≠ a) : (m.write a b).read a' = m.read a' := by
  induction m with
  | nil => exact cons_read_other b [] h
  | cons c m ih =>
    obtain ⟨k, x⟩ := c
    simp only [write]
    split
    · simp [read, ih]
    · split
      · next _ hk => subst hk; rw [cons_read_other b m h]; simp [read, h.symm]
      · exact cons_read_other b _ h

/-- A read after a write to the same address gives the value written (R60(2)). -/
theorem read_write_same {m : Memory} (hm : m.wf) (a : Nat) (b : Byte) : (m.write a b).read a = b := by
  induction m with
  | nil => exact cons_read_same a b [] (by simp)
  | cons c m ih =>
    obtain ⟨k, x⟩ := c
    obtain ⟨hs, hv⟩ := hm
    rw [List.pairwise_cons] at hs
    simp only [write]
    split
    · next hk =>
      simp only [read, Nat.ne_of_lt hk, if_false]
      exact ih ⟨hs.2, fun d hd => hv d (by simp [hd])⟩
    · split
      · next _ hk => subst hk; exact cons_read_same k b m hs.1
      · next h1 h2 =>
        have hak : a < k := by omega
        refine cons_read_same a b _ fun d hd => ?_
        rcases List.mem_cons.1 hd with rfl | hd
        · exact hak
        · exact hak.trans (hs.1 d hd)

/-- What a read gives after a write. -/
theorem read_write {m : Memory} (hm : m.wf) (a a' : Nat) (b : Byte) :
    (m.write a b).read a' = if a' = a then b else m.read a' := by
  split
  · next h => subst h; exact read_write_same hm _ b
  · next h => exact read_write_other m b h

theorem nil_wf : wf [] := by simp [wf]

theorem mem_cons_of {a : Nat} {b : Byte} {m : Memory} {c : Host.Cell} (h : c ∈ cons a b m) :
    c ∈ m ∨ (c = (a, b) ∧ b ≠ unlisted a) := by
  unfold cons at h
  split at h
  · exact .inl h
  · next hb =>
    rcases List.mem_cons.1 h with h | h
    · exact .inr ⟨h, hb⟩
    · exact .inl h

theorem mem_write_of {m : Memory} {a : Nat} {b : Byte} {c : Host.Cell} (h : c ∈ m.write a b) :
    c ∈ m ∨ (c = (a, b) ∧ b ≠ unlisted a) := by
  induction m with
  | nil => exact mem_cons_of h
  | cons d m ih =>
    obtain ⟨k, x⟩ := d
    simp only [write] at h
    split at h
    · rcases List.mem_cons.1 h with h | h
      · exact .inl (by simp [h])
      · rcases ih h with h | h
        · exact .inl (by simp [h])
        · exact .inr h
    · split at h
      · rcases mem_cons_of h with h | h
        · exact .inl (by simp [h])
        · exact .inr h
      · exact mem_cons_of h

theorem cons_pairwise {a : Nat} {b : Byte} {m : Memory} (hs : List.Pairwise (fun c d => c.1 < d.1) m)
    (h : ∀ c ∈ m, a < c.1) : List.Pairwise (fun c d => c.1 < d.1) (cons a b m) := by
  unfold cons
  split
  · exact hs
  · exact List.pairwise_cons.2 ⟨h, hs⟩

theorem write_pairwise {m : Memory} (hs : List.Pairwise (fun c d => c.1 < d.1) m) (a : Nat) (b : Byte) :
    List.Pairwise (fun c d => c.1 < d.1) (m.write a b) := by
  induction m with
  | nil => exact cons_pairwise hs (by simp)
  | cons d m ih =>
    obtain ⟨k, x⟩ := d
    rw [List.pairwise_cons] at hs
    simp only [write]
    split
    · next hk =>
      refine List.pairwise_cons.2 ⟨fun c hc => ?_, ih hs.2⟩
      rcases mem_write_of hc with hc | ⟨rfl, -⟩
      · exact hs.1 c hc
      · exact hk
    · split
      · next _ hk => subst hk; exact cons_pairwise hs.2 hs.1
      · next h1 h2 =>
        refine cons_pairwise (List.pairwise_cons.2 hs) fun c hc => ?_
        have hak : a < k := by omega
        rcases List.mem_cons.1 hc with rfl | hc
        · exact hak
        · exact hak.trans (hs.1 c hc)

/-- A write inside memory keeps the canonical form. -/
theorem write_wf {m : Memory} (hm : m.wf) {a : Nat} (ha : a ≤ lastAddr) (b : Byte) : (m.write a b).wf := by
  refine ⟨write_pairwise hm.1 a b, fun c hc => ?_⟩
  rcases mem_write_of hc with hc | ⟨rfl, hb⟩
  · exact hm.2 c hc
  · exact ⟨ha, hb⟩

/-- A block write keeps the canonical form. -/
theorem writeBlock_wf {m m' : Memory} (hm : m.wf) {a : Nat} {bs : List Byte} (h : m.writeBlock a bs = .ok m') :
    m'.wf := by
  induction bs generalizing m a with
  | nil => simp only [writeBlock] at h; cases h; exact hm
  | cons b bs ih =>
    simp only [writeBlock] at h
    split at h
    · next ha => exact ih (write_wf hm ha b) h
    · cases h

/-- The copies of reset keep the canonical form. -/
theorem load_wf {m : Memory} (hm : m.wf) (a : Nat) (bs : List Byte) : (m.load a bs).wf := by
  induction bs generalizing m a with
  | nil => exact hm
  | cons b bs ih =>
    simp only [load]
    split
    · next ha => exact ih (write_wf hm ha b) (a + 1)
    · exact hm

theorem filterMap_range_wf (f : Nat → Byte) (n : Nat) (hn : n ≤ lastAddr + 1) :
    wf ((List.range n).filterMap fun a => if f a = unlisted a then none else some (a, f a)) := by
  refine ⟨?_, fun c hc => ?_⟩
  · rw [List.pairwise_filterMap]
    refine List.Pairwise.imp ?_ List.pairwise_lt_range
    intro a b hab c hc d hd
    split at hc <;> split at hd <;> simp_all
    subst hc hd
    exact hab
  · rw [List.mem_filterMap] at hc
    obtain ⟨a, ha, hc⟩ := hc
    rw [List.mem_range] at ha
    split at hc
    · cases hc
    · next hne =>
      cases hc
      exact ⟨by omega, hne⟩

/-- The memory of given bytes is in canonical form. -/
theorem ofBytes_wf (f : Nat → Byte) : (ofBytes f).wf := by
  unfold ofBytes
  exact filterMap_range_wf f _ (Nat.le_refl _)

/-- What a block read does: the bytes when all addresses exist, else the first address above 0xFFF (R56). -/
theorem readBlock_eq (m : Memory) (a n : Nat) :
    m.readBlock a n =
      if n = 0 ∨ a + n ≤ lastAddr + 1 then .ok ((List.range n).map fun k => m.read (a + k))
      else .error (max a (lastAddr + 1)) := by
  induction n generalizing a with
  | zero => simp [readBlock]
  | succ n ih =>
    simp only [readBlock, ih, lastAddr]
    by_cases h1 : a ≤ 0xFFF
    · by_cases h2 : n = 0 ∨ a + 1 + n ≤ 0xFFF + 1
      · have h3 : n + 1 = 0 ∨ a + (n + 1) ≤ 0xFFF + 1 := by omega
        simp only [h1, h2, h3, if_true, List.range_succ_eq_map, List.map_cons, List.map_map]
        congr 2
        · simp only [List.map_inj_left, Function.comp]
          intro k _
          congr 1
          omega
      · have h3 : ¬ (n + 1 = 0 ∨ a + (n + 1) ≤ 0xFFF + 1) := by omega
        simp only [h1, h2, h3, if_true, if_false]
        congr 1
        omega
    · have h3 : ¬ (n + 1 = 0 ∨ a + (n + 1) ≤ 0xFFF + 1) := by omega
      simp only [h1, h3, if_false]
      congr 1
      omega

/-- When a block write completes, and the first address above 0xFFF when it does not (R56). -/
theorem writeBlock_error (m : Memory) (a : Nat) (bs : List Byte) (h : ¬ (bs.length = 0 ∨ a + bs.length ≤ lastAddr + 1)) :
    m.writeBlock a bs = .error (max a (lastAddr + 1)) := by
  induction bs generalizing m a with
  | nil => simp at h
  | cons b bs ih =>
    simp only [writeBlock, lastAddr, List.length_cons] at *
    split
    · rw [ih]
      · congr 1
        omega
      · omega
    · congr 1
      omega

/-- What a block write does when all its addresses exist: the bytes land in order, every other address reads as before. -/
theorem writeBlock_ok {m : Memory} (hm : m.wf) (a : Nat) (bs : List Byte) (h : bs.length = 0 ∨ a + bs.length ≤ lastAddr + 1) :
    ∃ m', m.writeBlock a bs = .ok m' ∧
      ∀ c, m'.read c = if a ≤ c ∧ c < a + bs.length then bs.getD (c - a) 0 else m.read c := by
  induction bs generalizing m a with
  | nil => exact ⟨m, rfl, fun c => by simp [show ¬ (a ≤ c ∧ c < a) by omega]⟩
  | cons b bs ih =>
    simp only [List.length_cons, lastAddr] at h
    have ha : a ≤ lastAddr := by simp only [lastAddr]; omega
    obtain ⟨m', h1, h2⟩ := ih (write_wf hm ha b) (a + 1) (by simp only [lastAddr]; omega)
    refine ⟨m', by simp only [writeBlock, ha, if_true, h1], fun c => ?_⟩
    rw [h2, read_write hm, List.length_cons]
    by_cases hc : c = a
    · subst hc
      simp
    · by_cases hr : a ≤ c ∧ c < a + (bs.length + 1)
      · have e : c - a = (c - (a + 1)) + 1 := by omega
        simp only [show a + 1 ≤ c ∧ c < a + 1 + bs.length by omega, hr, if_true, and_self, e, List.getD_cons_succ]
      · simp only [show ¬ (a + 1 ≤ c ∧ c < a + 1 + bs.length) by omega, hr, if_false, hc]

/-- What a block write leaves alone, whatever the memory's form. -/
theorem writeBlock_other {m m' : Memory} {a c : Nat} {bs : List Byte} (h : m.writeBlock a bs = .ok m')
    (hc : c < a ∨ a + bs.length ≤ c) : m'.read c = m.read c := by
  induction bs generalizing m a with
  | nil => simp only [writeBlock] at h; cases h; rfl
  | cons b bs ih =>
    simp only [writeBlock, List.length_cons] at h hc
    split at h
    · rw [ih h (by omega), read_write_other m b (by omega)]
    · cases h

/-- What a copy of reset does: its bytes land in order as far as memory goes, every other address reads as before (R220). -/
theorem load_read {m : Memory} (hm : m.wf) (a : Nat) (bs : List Byte) (c : Nat) :
    (m.load a bs).read c = if a ≤ c ∧ c < a + bs.length ∧ c ≤ lastAddr then bs.getD (c - a) 0 else m.read c := by
  induction bs generalizing m a with
  | nil =>
    simp only [load, List.length_nil]
    rw [if_neg (by omega)]
  | cons b bs ih =>
    simp only [load, List.length_cons]
    by_cases ha : a ≤ lastAddr
    · simp only [ha, if_true]
      rw [ih (write_wf hm ha b), read_write hm]
      by_cases hc : c = a
      · subst hc
        simp [ha]
      · by_cases hr : a ≤ c ∧ c < a + (bs.length + 1) ∧ c ≤ lastAddr
        · have e : c - a = (c - (a + 1)) + 1 := by omega
          rw [if_pos (show a + 1 ≤ c ∧ c < a + 1 + bs.length ∧ c ≤ lastAddr by omega), if_pos hr, e, List.getD_cons_succ]
        · rw [if_neg (show ¬ (a + 1 ≤ c ∧ c < a + 1 + bs.length ∧ c ≤ lastAddr) by omega), if_neg hr, if_neg hc]
    · simp only [ha, if_false]
      rw [if_neg (by omega)]

/-- A canonical memory is determined by what it reads as. -/
theorem eq_of_read_eq {m m' : Memory} (hm : m.wf) (hm' : m'.wf) (h : ∀ a, m.read a = m'.read a) : m = m' := by
  induction m generalizing m' with
  | nil =>
    cases m' with
    | nil => rfl
    | cons d m' =>
      have := h d.1
      simp only [read, if_true] at this
      exact absurd this.symm (hm'.2 d (by simp)).2
  | cons c m ih =>
    obtain ⟨hs, hv⟩ := hm
    rw [List.pairwise_cons] at hs
    cases m' with
    | nil =>
      have := h c.1
      simp only [read, if_true] at this
      exact absurd this (hv c (by simp)).2
    | cons d m' =>
      obtain ⟨hs', hv'⟩ := hm'
      rw [List.pairwise_cons] at hs'
      have hcd : c.1 = d.1 := by
        rcases Nat.lt_trichotomy c.1 d.1 with hlt | he | hlt
        · exfalso
          have := h c.1
          rw [read, if_pos rfl, read_unlisted] at this
          · exact (hv c (by simp)).2 this
          · intro e he
            rcases List.mem_cons.1 he with rfl | he
            · omega
            · have := hs'.1 e he; omega
        · exact he
        · exfalso
          have := h d.1
          rw [read_unlisted, read, if_pos rfl] at this
          · exact (hv' d (by simp)).2 this.symm
          · intro e he
            rcases List.mem_cons.1 he with rfl | he
            · omega
            · have := hs.1 e he; omega
      have hb : c.2 = d.2 := by
        have := h c.1
        rwa [read, if_pos rfl, read, if_pos hcd.symm] at this
      have htl : m = m' := by
        refine ih ⟨hs.2, fun e he => hv e (by simp [he])⟩ ⟨hs'.2, fun e he => hv' e (by simp [he])⟩ fun a => ?_
        by_cases ha : a = c.1
        · subst ha
          rw [read_unlisted fun e he => (hs.1 e he).ne', read_unlisted fun e he => by have := hs'.1 e he; omega]
        · have := h a
          rwa [read, if_neg (Ne.symm ha), read, if_neg (by omega)] at this
      rw [htl, Prod.ext hcd hb]

end Sys2Proof.Machine.Memory
end

