-- ==== Sys2Proof/Laws/Ops.lean ====
section
/-! SUPPORT. One lemma per shared operation that says everything it can do: taking a fault, the stack, checked accesses, the
timers, the key query and the blit loop. -/

namespace Sys2Proof.Machine

/-! ## Taking a fault (R181) -/

section enterFault
variable (f : Fault) (s : State)

@[simp] theorem enterFault_status : (enterFault f s).status = .faulted f := rfl
@[simp] theorem enterFault_out : (enterFault f s).out = s.out := rfl
@[simp] theorem enterFault_cfg : (enterFault f s).cfg = s.cfg := rfl
@[simp] theorem enterFault_inputs : (enterFault f s).inputs = s.inputs := rfl
@[simp] theorem enterFault_drawn : (enterFault f s).drawn = s.drawn := rfl
@[simp] theorem enterFault_collabGone : (enterFault f s).collabGone = s.collabGone := rfl
@[simp] theorem enterFault_draw : (enterFault f s).draw = s.draw := rfl
@[simp] theorem enterFault_releaseAnswer : (enterFault f s).releaseAnswer = s.releaseAnswer := rfl

theorem enterFault_mem : (enterFault f s).mem = Memory.ofBytes (Config.faultByte s.drawn) := rfl

/-- Memory after a fault is free, in canonical form. -/
theorem enterFault_mem_wf : (enterFault f s).mem.wf := by
  rw [enterFault_mem]
  exact Memory.ofBytes_wf _

/-- What a fault leaves depends on the parameters, the environment and the commands alone (R181). -/
theorem enterFault_congr {t : State} (h1 : t.out = s.out) (h2 : t.cfg = s.cfg) (h3 : t.inputs = s.inputs)
    (h4 : t.drawn = s.drawn) (h5 : t.collabGone = s.collabGone) : enterFault f t = enterFault f s := by
  simp [enterFault, afterFault, State.setStatus, *]

end enterFault

/-- A checked access goes on or faults with the first address out of range (R56). -/
theorem orOutOfBounds_cases {α : Type} {r : Except Nat α} {s t : State} {k : α → State}
    (h : orOutOfBounds r s k = .next t) :
    (∃ a, r = .ok a ∧ t = k a) ∨ ∃ a, r = .error a ∧ t = enterFault (.outOfBoundsAccess a) s := by
  cases r with
  | ok a => exact .inl ⟨a, rfl, (Host.Outcome.next.inj h).symm⟩
  | error a => exact .inr ⟨a, rfl, (Host.Outcome.next.inj h).symm⟩

/-! ## The return stack (R110, R111) -/

/-- A push stores and goes on, or finds no slot and faults (R110). -/
theorem push_eq (w : Word) (s : State) (k : State → State) :
    push w s k =
      if h : pushSlot s < 16 then .next (k (s.setStack (s.sp + 1) (s.stack.set (pushSlot s) w h)))
      else .next (enterFault .stackOverflow s) := rfl

/-- The popped value is the slot's, or free where there is no slot (R111). -/
theorem topOfStack_eq (s : State) :
    topOfStack s = if h : popSlot s < 16 then s.stack[popSlot s] else Config.freeSlot s.drawn := rfl

/-- A pop finds nothing and faults, or goes on with the top of the stack and lowers `SP` (R111). -/
theorem pop_eq (s : State) (k : Word → State → State) :
    pop s k =
      if s.sp.toNat = 0 then .next (enterFault .stackUnderflow s)
      else .next (k (topOfStack s) (s.setStack (s.sp - 1) s.stack)) := rfl

/-! ## The timers and the audio edge (R192, R195) -/

/-- The command a write of `ST` emits (R195). -/
def audioEdge (was now : Byte) : List Command :=
  if (now != 0) != (was != 0) then [.setAudioEnabled (now != 0)] else []

/-- `WriteST` writes `ST`, appends the edge command, and does nothing else (R195). -/
theorem writeSt_eq (b : Byte) (s : State) : writeSt b s = { s with st := b, out := s.out ++ audioEdge s.st b } := by
  simp only [writeSt, State.audioOn, State.setSt, State.emit, audioEdge]
  split <;> simp_all

/-- A decrement floors each timer at 0, appends the edge command, and does nothing else (R192). -/
theorem timerDecrement_eq (s : State) :
    timerDecrement s =
      { s with
        dt := if s.dt.toNat > 0 then s.dt - 1 else s.dt
        st := if s.st.toNat > 0 then s.st - 1 else s.st
        out := s.out ++ if s.st.toNat > 0 then audioEdge s.st (s.st - 1) else [] } := by
  unfold timerDecrement
  by_cases h1 : s.dt.toNat > 0 <;> by_cases h2 : s.st.toNat > 0 <;>
    simp [h1, h2, writeSt_eq, State.setDt]

/-- The catch-up decrement subtracts the elapsed periods, floored at 0 (R192). -/
theorem timerCatchUp_eq (p : Nat) (s : State) :
    timerCatchUp p s =
      { s with
        dt := BitVec.ofNat 8 (s.dt.toNat - p)
        st := BitVec.ofNat 8 (s.st.toNat - p)
        out := s.out ++ audioEdge s.st (BitVec.ofNat 8 (s.st.toNat - p)) } := by
  simp [timerCatchUp, writeSt_eq, State.setDt]

/-- Whatever a timer check does, it is a change of `DT`, `ST` and the edge command of the change of `ST` (R97). -/
theorem timerCheck_cases (s : State) :
    ∃ d b, timerCheck s = { s with dt := d, st := b, out := s.out ++ audioEdge s.st b } := by
  have e : audioEdge s.st s.st = [] := by simp [audioEdge]
  unfold timerCheck
  split
  · exact ⟨_, _, timerCatchUp_eq _ _⟩
  · split
    · rw [timerDecrement_eq]
      refine ⟨_, if s.st.toNat > 0 then s.st - 1 else s.st, State.ext rfl rfl rfl rfl rfl rfl rfl rfl rfl rfl ?_ rfl rfl rfl rfl⟩
      by_cases hs : s.st.toNat > 0 <;> simp [hs, e]
    · exact ⟨s.dt, s.st, by simp [e]⟩

/-! ## The key query (R163) -/

/-- The key query faults, or answers "not pressed" with no command, or emits the query and answers (R163, R209). -/
theorem keyDown_cases {v : Byte} {s t : State} {k : Bool → State → State} (h : keyDown v s k = .next t) :
    (v.toNat > 15 ∧ s.cfg.keyOor = .fault ∧ t = enterFault (.keyIndexOutOfRange v) s) ∨
    (v.toNat > 15 ∧ s.cfg.keyOor = .notPressed ∧ t = k false s) ∨
    (v.toNat ≤ 15 ∧ s.keyAnswer = .unavailable ∧
      t = k false (s.emit (.isKeyPressed (v.truncate 4))).loseCollaborator) ∨
    (v.toNat ≤ 15 ∧ s.keyAnswer ≠ .unavailable ∧
      t = k (s.keyAnswer == .down) (s.emit (.isKeyPressed (v.truncate 4)))) := by
  unfold keyDown at h
  split at h
  · next hv =>
    split at h
    · next hk => exact .inl ⟨hv, hk, (Host.Outcome.next.inj h).symm⟩
    · next hk => exact .inr (.inl ⟨hv, hk, (Host.Outcome.next.inj h).symm⟩)
  · next hv =>
    have ht := (Host.Outcome.next.inj h).symm
    refine .inr (.inr ?_)
    cases ha : s.keyAnswer <;> simp only [ha] at ht
    · exact .inr ⟨by omega, by simp, by simp [ht]⟩
    · exact .inr ⟨by omega, by simp, by rw [ht]; rfl⟩
    · exact .inl ⟨by omega, rfl, ht⟩

/-! ## The blit loop (R171 to R173) -/

/-- Composition of the loop over a split sprite. -/
theorem blit_cons (how : Collision) (vx : Byte) (fb : Framebuffer) (r : Nat) (q : Bool) (b : Byte) (bs : List Byte) :
    blit how vx fb r q (b :: bs) =
      blit how vx
        (fb.set (r % 32) (fb[r % 32]'(Nat.mod_lt _ (by decide)) ^^^ position b vx) (Nat.mod_lt _ (by decide))) (r + 1)
        (joinCollision how q (rowCollision (fb[r % 32]'(Nat.mod_lt _ (by decide)))
          (fb[r % 32]'(Nat.mod_lt _ (by decide)) ^^^ position b vx))) bs := rfl

/-- A row's collision is a shared set bit of the old row and the positioned sprite row (R173). -/
theorem rowCollision_xor (old p : Row) : rowCollision old (old ^^^ p) = ((old &&& p) != 0) := by
  unfold rowCollision
  congr 1
  ext k hk
  simp only [BitVec.getElem_and, BitVec.getElem_not, BitVec.getElem_xor]
  cases old[k] <;> cases p[k] <;> rfl

/-- A row the loop does not reach is unchanged. -/
theorem blit_row_other (how : Collision) (vx : Byte) (bs : List Byte) (fb : Framebuffer) (r : Nat) (q : Bool) (k : Nat)
    (hk : k < 32) (h : ∀ i < bs.length, (r + i) % 32 ≠ k) : (blit how vx fb r q bs).1[k] = fb[k] := by
  induction bs generalizing fb r q with
  | nil => rfl
  | cons b bs ih =>
    rw [blit_cons, ih]
    · rw [Vector.getElem_set_ne]
      exact h 0 (by simp)
    · intro i hi
      have := h (i + 1) (by simpa using hi)
      rwa [show r + 1 + i = r + (i + 1) by omega]

/-- A row the loop reaches is XORed with its positioned sprite row, once: no row is reached twice (R174(c)). -/
theorem blit_row (how : Collision) (vx : Byte) (bs : List Byte) (fb : Framebuffer) (r : Nat) (q : Bool) (i : Nat)
    (hi : i < bs.length) (hl : bs.length ≤ 32) :
    (blit how vx fb r q bs).1[(r + i) % 32]'(Nat.mod_lt _ (by decide)) =
      fb[(r + i) % 32]'(Nat.mod_lt _ (by decide)) ^^^ position bs[i] vx := by
  induction bs generalizing fb r q i with
  | nil => simp at hi
  | cons b bs ih =>
    simp only [List.length_cons] at hi hl
    rw [blit_cons]
    cases i with
    | zero =>
      rw [blit_row_other]
      · simp
      · intro j hj
        omega
    | succ i =>
      have e : r + (i + 1) = r + 1 + i := by omega
      simp only [e, List.getElem_cons_succ]
      rw [ih _ _ _ _ (by omega) (by omega), Vector.getElem_set_ne]
      omega

/-- The collision flag of the loop with OR aggregation: some row shared a set bit with its sprite row (R173). -/
theorem blit_collision (vx : Byte) (bs : List Byte) (fb : Framebuffer) (r : Nat) (q : Bool) (hl : bs.length ≤ 32) :
    (blit .orRows vx fb r q bs).2 = true ↔
      q = true ∨ ∃ i, ∃ h : i < bs.length,
        (fb[(r + i) % 32]'(Nat.mod_lt _ (by decide)) &&& position bs[i] vx) ≠ 0 := by
  induction bs generalizing fb r q with
  | nil => simp [blit]
  | cons b bs ih =>
    simp only [List.length_cons] at hl
    rw [blit_cons, ih _ _ _ (by omega), rowCollision_xor]
    simp only [joinCollision, Bool.or_eq_true, bne_iff_ne, ne_eq, or_assoc]
    refine or_congr_right ⟨?_, ?_⟩
    · rintro (h | ⟨i, hi, h⟩)
      · exact ⟨0, by simp, h⟩
      · refine ⟨i + 1, by simpa using hi, ?_⟩
        rw [Vector.getElem_set_ne _ _ (by omega)] at h
        simpa [show r + (i + 1) = r + 1 + i by omega] using h
    · rintro ⟨i, hi, h⟩
      cases i with
      | zero => exact .inl h
      | succ i =>
        refine .inr ⟨i, by simpa using hi, ?_⟩
        rw [Vector.getElem_set_ne _ _ (by simp at hi; omega)]
        simpa [show r + (i + 1) = r + 1 + i by omega] using h

/-- Which columns a positioned sprite byte lights: bit `7 - j` lights column `(vx + j) mod 64` (R171). -/
theorem position_bit (b vx : Byte) (c : Nat) (hc : c < 64) :
    (position b vx).getLsbD (63 - c) = true ↔ ∃ j < 8, c = (vx.toNat + j) % 64 ∧ b.getLsbD (7 - j) = true := by
  unfold position
  rw [BitVec.getLsbD_rotateRight]
  simp only [BitVec.getLsbD_shiftLeft, Nat.mod_mod, cond_eq_ite, decide_eq_true_eq]
  have hk : vx.toNat % 64 < 64 := Nat.mod_lt _ (by decide)
  have key : ∀ p, p < 64 → ((decide (p < 64) && !decide (p < 56) && (BitVec.zeroExtend 64 b).getLsbD (p - 56)) = true ↔ 56 ≤ p ∧ b.getLsbD (p - 56) = true) := by
    intro p hp; simp [hp]; omega
  constructor
  · intro h
    split at h
    · next h1 =>
      rw [key _ (by omega)] at h
      refine ⟨7 - (vx.toNat % 64 + (63 - c) - 56), by omega, by omega, ?_⟩
      rw [show 7 - (7 - (vx.toNat % 64 + (63 - c) - 56)) = vx.toNat % 64 + (63 - c) - 56 by omega]; exact h.2
    · next h1 =>
      rw [Bool.and_eq_true, key _ (by omega)] at h
      refine ⟨7 - (63 - c - (64 - vx.toNat % 64) - 56), by omega, by omega, ?_⟩
      rw [show 7 - (7 - (63 - c - (64 - vx.toNat % 64) - 56)) = 63 - c - (64 - vx.toNat % 64) - 56 by omega]; exact h.2.2
  · rintro ⟨j, hj, hcj, hb⟩
    split
    · next h1 =>
      rw [key _ (by omega)]
      refine ⟨by omega, ?_⟩
      rw [show vx.toNat % 64 + (63 - c) - 56 = 7 - j by omega]; exact hb
    · next h1 =>
      rw [Bool.and_eq_true, key _ (by omega)]
      refine ⟨by simp; omega, by omega, ?_⟩
      rw [show 63 - c - (64 - vx.toNat % 64) - 56 = 7 - j by omega]; exact hb

/-- The collision flag of the loop with the last row's aggregation: the last row alone counts (R173). -/
theorem blit_collision_last (vx : Byte) (bs : List Byte) (fb : Framebuffer) (r : Nat) (q : Bool) (hl : bs.length ≤ 32) (h : bs ≠ []) :
    (blit .lastRow vx fb r q bs).2 = ((fb[(r + (bs.length - 1)) % 32]'(Nat.mod_lt _ (by decide)) &&& position (bs.getLast h) vx) != 0) := by
  induction bs generalizing fb r q with
  | nil => simp at h
  | cons b bs ih =>
    rw [blit_cons]
    cases bs with
    | nil => simp [blit, rowCollision_xor, joinCollision]
    | cons b2 bs =>
      simp only [List.length_cons] at hl
      rw [ih _ _ _ (by simp; omega) (by simp)]
      simp only [List.length_cons, Nat.add_sub_cancel, List.getLast_cons_cons]
      rw [Vector.getElem_set_ne _ _ (by omega)]
      simp [show r + 1 + bs.length = r + (bs.length + 1) by omega]

/-! ## The register block (R155) -/

/-- What a register holds after a block is filled in: its byte of the block, or what it held (R157). -/
theorem fillRegs_getElem (v : Vector Byte 16) (k : Nat) (bs : List Byte) (j : Nat) (hj : j < 16) :
    (fillRegs v k bs)[j] = if k ≤ j ∧ j < k + bs.length then bs.getD (j - k) 0 else v[j] := by
  induction bs generalizing v k with
  | nil => simp [fillRegs]
  | cons b bs ih =>
    rw [fillRegs, ih]
    simp only [List.length_cons]
    by_cases h1 : k = j
    · subst h1
      simp
    · by_cases h2 : k + 1 ≤ j ∧ j < k + 1 + bs.length
      · rw [if_pos h2, if_pos (by omega), show j - k = (j - (k + 1)) + 1 by omega]
        rfl
      · rw [if_neg h2, if_neg (by omega)]
        simp [h1]

end Sys2Proof.Machine
end

