-- ==== Sys2Proof/Laws/PerInstr.lean ====
section
/-! SUPPORT. Statements for all instructions, one lemma per constructor: the encoding lies in the row of the opcode map that the
table gives the instruction (spec/30_encoding.md R76). -/

namespace Sys2Proof.Laws

/-- The encoding is in its row: `w & mask = match` (R76). -/
def InTableRow.Statement (i : Instr) : Prop := encode i &&& rowMask i = rowMatch i

/-- A bit of a word of format NNN. -/
theorem wordNNN_getElem (op : BitVec 4) (nnn : Addr12) (k : Nat) (hk : k < 16) :
    (wordNNN op nnn)[k] = if h : k < 12 then nnn[k] else op[k - 12] := by
  change (op ++ nnn)[k] = _
  rw [BitVec.getElem_append]

/-- A bit of a word of format XKK. -/
theorem wordXKK_getElem (op : BitVec 4) (x : Reg) (kk : Byte) (k : Nat) (hk : k < 16) :
    (wordXKK op x kk)[k] = if h : k < 8 then kk[k] else if h2 : k - 8 < 4 then x[k - 8] else op[k - 8 - 4] := by
  change (op ++ x ++ kk)[k] = _
  rw [BitVec.getElem_append]
  refine dite_congr rfl (fun _ => rfl) fun h => ?_
  change (op ++ x)[k - 8] = _
  rw [BitVec.getElem_append]

/-- A bit of a word of format XYN. -/
theorem wordXYN_getElem (op : BitVec 4) (x y : Reg) (n : Nibble) (k : Nat) (hk : k < 16) :
    (wordXYN op x y n)[k] =
      if h : k < 4 then n[k]
      else if h2 : k - 4 < 4 then y[k - 4]
      else if h3 : k - 4 - 4 < 4 then x[k - 4 - 4] else op[k - 4 - 4 - 4] := by
  change (op ++ x ++ y ++ n)[k] = _
  rw [BitVec.getElem_append]
  refine dite_congr rfl (fun _ => rfl) fun h => ?_
  change (op ++ x ++ y)[k - 4] = _
  rw [BitVec.getElem_append]
  refine dite_congr rfl (fun _ => rfl) fun h => ?_
  change (op ++ x)[k - 4 - 4] = _
  rw [BitVec.getElem_append]

theorem wordNNN_and (op : BitVec 4) (nnn : Addr12) : wordNNN op nnn &&& 0xF000 = wordNNN op 0 := by
  ext k hk
  rw [BitVec.getElem_and, wordNNN_getElem, wordNNN_getElem]
  interval_cases k <;> simp

theorem wordXKK_and (op : BitVec 4) (x : Reg) (kk : Byte) : wordXKK op x kk &&& 0xF000 = wordXKK op 0 0 := by
  ext k hk
  rw [BitVec.getElem_and, wordXKK_getElem, wordXKK_getElem]
  interval_cases k <;> simp

theorem wordXKK_and_low (op : BitVec 4) (x : Reg) (kk : Byte) : wordXKK op x kk &&& 0xF0FF = wordXKK op 0 kk := by
  ext k hk
  rw [BitVec.getElem_and, wordXKK_getElem, wordXKK_getElem]
  interval_cases k <;> simp

theorem wordXYN_and (op : BitVec 4) (x y : Reg) (n : Nibble) : wordXYN op x y n &&& 0xF000 = wordXYN op 0 0 0 := by
  ext k hk
  rw [BitVec.getElem_and, wordXYN_getElem, wordXYN_getElem]
  interval_cases k <;> simp

theorem wordXYN_and_low (op : BitVec 4) (x y : Reg) (n : Nibble) : wordXYN op x y n &&& 0xF00F = wordXYN op 0 0 n := by
  ext k hk
  rw [BitVec.getElem_and, wordXYN_getElem, wordXYN_getElem]
  interval_cases k <;> simp

theorem InTableRow.sys (nnn : Addr12) : InTableRow.Statement (.sys nnn) := (wordNNN_and _ nnn).trans rfl

theorem InTableRow.cls : InTableRow.Statement .cls := rfl

theorem InTableRow.ret : InTableRow.Statement .ret := rfl

theorem InTableRow.jp (nnn : Addr12) : InTableRow.Statement (.jp nnn) := (wordNNN_and _ nnn).trans rfl

theorem InTableRow.call (nnn : Addr12) : InTableRow.Statement (.call nnn) := (wordNNN_and _ nnn).trans rfl

theorem InTableRow.seImm (x : Reg) (kk : Byte) : InTableRow.Statement (.seImm x kk) := (wordXKK_and _ x kk).trans rfl

theorem InTableRow.sneImm (x : Reg) (kk : Byte) : InTableRow.Statement (.sneImm x kk) := (wordXKK_and _ x kk).trans rfl

theorem InTableRow.seReg (x : Reg) (y : Reg) : InTableRow.Statement (.seReg x y) := (wordXYN_and_low _ x y _).trans rfl

theorem InTableRow.ldImm (x : Reg) (kk : Byte) : InTableRow.Statement (.ldImm x kk) := (wordXKK_and _ x kk).trans rfl

theorem InTableRow.addImm (x : Reg) (kk : Byte) : InTableRow.Statement (.addImm x kk) := (wordXKK_and _ x kk).trans rfl

theorem InTableRow.ldReg (x : Reg) (y : Reg) : InTableRow.Statement (.ldReg x y) := (wordXYN_and_low _ x y _).trans rfl

theorem InTableRow.orReg (x : Reg) (y : Reg) : InTableRow.Statement (.orReg x y) := (wordXYN_and_low _ x y _).trans rfl

theorem InTableRow.andReg (x : Reg) (y : Reg) : InTableRow.Statement (.andReg x y) := (wordXYN_and_low _ x y _).trans rfl

theorem InTableRow.xorReg (x : Reg) (y : Reg) : InTableRow.Statement (.xorReg x y) := (wordXYN_and_low _ x y _).trans rfl

theorem InTableRow.addReg (x : Reg) (y : Reg) : InTableRow.Statement (.addReg x y) := (wordXYN_and_low _ x y _).trans rfl

theorem InTableRow.sub (x : Reg) (y : Reg) : InTableRow.Statement (.sub x y) := (wordXYN_and_low _ x y _).trans rfl

theorem InTableRow.shr (x : Reg) (y : Reg) : InTableRow.Statement (.shr x y) := (wordXYN_and_low _ x y _).trans rfl

theorem InTableRow.subn (x : Reg) (y : Reg) : InTableRow.Statement (.subn x y) := (wordXYN_and_low _ x y _).trans rfl

theorem InTableRow.shl (x : Reg) (y : Reg) : InTableRow.Statement (.shl x y) := (wordXYN_and_low _ x y _).trans rfl

theorem InTableRow.sneReg (x : Reg) (y : Reg) : InTableRow.Statement (.sneReg x y) := (wordXYN_and_low _ x y _).trans rfl

theorem InTableRow.ldI (nnn : Addr12) : InTableRow.Statement (.ldI nnn) := (wordNNN_and _ nnn).trans rfl

theorem InTableRow.jpV0 (nnn : Addr12) : InTableRow.Statement (.jpV0 nnn) := (wordNNN_and _ nnn).trans rfl

theorem InTableRow.rnd (x : Reg) (kk : Byte) : InTableRow.Statement (.rnd x kk) := (wordXKK_and _ x kk).trans rfl

theorem InTableRow.drw (x : Reg) (y : Reg) (n : Nibble) : InTableRow.Statement (.drw x y n) := (wordXYN_and _ x y n).trans rfl

theorem InTableRow.skp (x : Reg) : InTableRow.Statement (.skp x) := (wordXKK_and_low _ x _).trans rfl

theorem InTableRow.sknp (x : Reg) : InTableRow.Statement (.sknp x) := (wordXKK_and_low _ x _).trans rfl

theorem InTableRow.ldVxDt (x : Reg) : InTableRow.Statement (.ldVxDt x) := (wordXKK_and_low _ x _).trans rfl

theorem InTableRow.ldVxK (x : Reg) : InTableRow.Statement (.ldVxK x) := (wordXKK_and_low _ x _).trans rfl

theorem InTableRow.ldDtVx (x : Reg) : InTableRow.Statement (.ldDtVx x) := (wordXKK_and_low _ x _).trans rfl

theorem InTableRow.ldStVx (x : Reg) : InTableRow.Statement (.ldStVx x) := (wordXKK_and_low _ x _).trans rfl

theorem InTableRow.addI (x : Reg) : InTableRow.Statement (.addI x) := (wordXKK_and_low _ x _).trans rfl

theorem InTableRow.ldF (x : Reg) : InTableRow.Statement (.ldF x) := (wordXKK_and_low _ x _).trans rfl

theorem InTableRow.ldB (x : Reg) : InTableRow.Statement (.ldB x) := (wordXKK_and_low _ x _).trans rfl

theorem InTableRow.storeRegs (x : Reg) : InTableRow.Statement (.storeRegs x) := (wordXKK_and_low _ x _).trans rfl

theorem InTableRow.loadRegs (x : Reg) : InTableRow.Statement (.loadRegs x) := (wordXKK_and_low _ x _).trans rfl

end Sys2Proof.Laws
end

