-- ==== Sys2Proof/Laws/Step.lean ====
section
/-! SUPPORT. What a step can do, said once (spec/40_engine_cycle.md R90 to R100), and the induction from one step to a run. -/

namespace Sys2Proof.Machine

/-- Everything a step that answers a next state can have done: a halted machine stayed, fetch or decode faulted, the zero
word halted, or an instruction ran and the cycle ended. -/
theorem step_cases {s t : State} (h : step s = .next t) :
    (s.status = .halted ∧ t = s) ∨
    (s.status = .running ∧
      ((∃ a, fetch s = .error a ∧ t = enterFault (.outOfBoundsAccess a) s) ∨
       ∃ w, fetch s = .ok w ∧
        ((haltsOn s.cfg w = true ∧ t = halt s) ∨
         (haltsOn s.cfg w = false ∧
          ((∃ e, decodeWord s.cfg.strictLowNibble w = .error e ∧ t = enterFault (.decodeError w) s) ∨
           ∃ i u, decodeWord s.cfg.strictLowNibble w = .ok i ∧ exec i (advance s) = .next u ∧ t = endCycle i u))))) := by
  unfold step at h
  split at h
  · next hs =>
    refine .inr ⟨hs, ?_⟩
    unfold cycle at h
    split at h
    · next a ha => exact .inl ⟨a, ha, (Host.Outcome.next.inj h).symm⟩
    · next w hw =>
      refine .inr ⟨w, hw, ?_⟩
      split at h
      · next hz => exact .inl ⟨hz, (Host.Outcome.next.inj h).symm⟩
      · next hz =>
        refine .inr ⟨by simpa using hz, ?_⟩
        split at h
        · next e he => exact .inl ⟨e, he, (Host.Outcome.next.inj h).symm⟩
        · next i hi =>
          unfold runInstr at h
          split at h
          · next u hu => exact .inr ⟨i, u, hi, hu, (Host.Outcome.next.inj h).symm⟩
          · cases h
          · cases h
  · next hs => exact .inl ⟨hs, (Host.Outcome.next.inj h).symm⟩
  · cases h

/-- What ending a cycle does: a held or stopped cycle changes only the draws or nothing; a completed one emits the redraw,
checks the timers and uses up the draw. -/
theorem endCycle_cases (i : Instr) (u : State) :
    (held i u = true ∧ endCycle i u = u.nextDraw) ∨
    (held i u = false ∧ u.status ≠ .running ∧ endCycle i u = u) ∨
    (held i u = false ∧ u.status = .running ∧ endCycle i u = (timerCheck (notifyRedraw i u)).nextDraw) := by
  unfold endCycle
  split
  · next h => exact .inl ⟨h, rfl⟩
  · next h =>
    have h : held i u = false := by simpa using h
    split
    · next hs => exact .inr (.inr ⟨h, hs, rfl⟩)
    · next hs => exact .inr (.inl ⟨h, by simp [hs], rfl⟩)
    · next hs => exact .inr (.inl ⟨h, by simp [hs], rfl⟩)

/-- The redraw notification appends at most one command and does nothing else (R96). -/
theorem notifyRedraw_eq (i : Instr) (s : State) :
    notifyRedraw i s = { s with out := s.out ++ if isDraw i then [.requestRedraw s.fb] else [] } := by
  unfold notifyRedraw State.emit State.readPort
  split <;> simp_all

/-- What every step keeps, every run keeps. -/
theorem run_keeps (P : State → Prop) (hstep : ∀ s t, P s → step s = .next t → P t) (n : Nat) (s t : State)
    (h : Sys2Proof.core.run n s = .next t) (hs : P s) : P t := by
  induction n generalizing s with
  | zero => exact Host.Outcome.next.inj h ▸ hs
  | succ n ih =>
    simp only [Host.Core.run] at h
    split at h
    · next u hu => exact ih u h (hstep s u hs hu)
    · cases h
    · cases h

end Sys2Proof.Machine
end

