-- ==== Sys2Proof/Tests/Slice0.lean ====
section
/-! SUPPORT. The model's own tests. The expected values are those of spec/95_test_vectors.md (a vector's name stands in each
theorem's comment) or worked out by hand from the rule named; the decode tests write the words out bit by bit from the masks
and matches of spec/30_encoding.md R76. The theorems `witness_…` meet the hypotheses of the obligation of that name. -/

namespace Sys2Proof.Tests

open Sys2Proof Sys2Proof.Machine

/-! ## Helpers -/

/-- A draw with no tick, no key down, no release. -/
def quiet : Draw := ⟨0xAB, .up, .pending, 0⟩

/-- Reset, with the word at 0x200, some registers set and the cycle's draw given. -/
def before (w : Word) (rs : List (Reg × Byte)) (d : Draw := quiet) : State :=
  rs.foldl (fun s r => s.setReg r.1 r.2) { placeWord w State.reset with inputs := [d] }

/-- The same with `I` set and bytes stored from `I`. -/
def beforeI (w : Word) (rs : List (Reg × Byte)) (a : Word) (bs : List Byte) : State :=
  let s := (before w rs).setI a
  s.setMem (s.mem.load a.toNat bs)

/-- The state an outcome answers, if it answers one. -/
def nextOf : Host.Outcome State Fault Refusal → Option State
  | .next t => some t
  | .fault _ => none
  | .refused _ => none

/-- One step. -/
def after (s : State) : State := (nextOf (step s)).getD State.reset

/-- The registers of a state. -/
def regsOf (s : State) (rs : List Reg) : List Byte := rs.map s.reg

/-! ## Well-formedness and decoding -/

/-- R113: `SYS 0x0E0` is no instruction with a word of its own. -/
theorem test_sys_0E0_ill_formed : WellFormed (.sys 0x0E0) = false := by decide

/-- R113: `SYS 0x0EE` neither. -/
theorem test_sys_0EE_ill_formed : WellFormed (.sys 0x0EE) = false := by decide

/-- The 0 family: `0000 nnnn nnnn nnnn`, and the two fixed words. -/
theorem test_decode_family0 :
    decodeWord true 0b0000111111111110 = .ok (.sys 0xFFE) ∧ decodeWord true 0b0000000011100000 = .ok .cls ∧
    decodeWord true 0b0000000011101110 = .ok .ret := by decide

theorem test_decode_address_forms :
    decodeWord true 0b0001001000110100 = .ok (.jp 0x234) ∧ decodeWord true 0b0010101010111100 = .ok (.call 0xABC) ∧
    decodeWord true 0b1010000100100011 = .ok (.ldI 0x123) ∧ decodeWord true 0b1011000100100011 = .ok (.jpV0 0x123) := by decide

theorem test_decode_byte_forms :
    decodeWord true 0b0011101001000010 = .ok (.seImm 10 0x42) ∧ decodeWord true 0b0100101001000010 = .ok (.sneImm 10 0x42) ∧
    decodeWord true 0b0110101001000010 = .ok (.ldImm 10 0x42) ∧ decodeWord true 0b0111101001000010 = .ok (.addImm 10 0x42) ∧
    decodeWord true 0b1100101000001111 = .ok (.rnd 10 0x0F) := by decide

theorem test_decode_register_skips :
    decodeWord true 0b0101101010110000 = .ok (.seReg 10 11) ∧ decodeWord true 0b1001101010110000 = .ok (.sneReg 10 11) := by decide

theorem test_decode_family8_moves :
    decodeWord true 0b1000101010110000 = .ok (.ldReg 10 11) ∧ decodeWord true 0b1000101010110001 = .ok (.orReg 10 11) ∧
    decodeWord true 0b1000101010110010 = .ok (.andReg 10 11) ∧ decodeWord true 0b1000101010110011 = .ok (.xorReg 10 11) := by
  decide

theorem test_decode_family8_arithmetic :
    decodeWord true 0b1000101010110100 = .ok (.addReg 10 11) ∧ decodeWord true 0b1000101010110101 = .ok (.sub 10 11) ∧
    decodeWord true 0b1000101010110110 = .ok (.shr 10 11) ∧ decodeWord true 0b1000101010110111 = .ok (.subn 10 11) ∧
    decodeWord true 0b1000101010111110 = .ok (.shl 10 11) := by decide

theorem test_decode_draw_and_keys :
    decodeWord true 0b1101101010110101 = .ok (.drw 10 11 5) ∧ decodeWord true 0b1110101010011110 = .ok (.skp 10) ∧
    decodeWord true 0b1110101010100001 = .ok (.sknp 10) := by decide

theorem test_decode_familyF_timers :
    decodeWord true 0b1111101000000111 = .ok (.ldVxDt 10) ∧ decodeWord true 0b1111101000001010 = .ok (.ldVxK 10) ∧
    decodeWord true 0b1111101000010101 = .ok (.ldDtVx 10) ∧ decodeWord true 0b1111101000011000 = .ok (.ldStVx 10) := by decide

theorem test_decode_familyF_memory :
    decodeWord true 0b1111101000011110 = .ok (.addI 10) ∧ decodeWord true 0b1111101000101001 = .ok (.ldF 10) ∧
    decodeWord true 0b1111101000110011 = .ok (.ldB 10) ∧ decodeWord true 0b1111101001010101 = .ok (.storeRegs 10) ∧
    decodeWord true 0b1111101001100101 = .ok (.loadRegs 10) := by decide

/-- D15, D27, D43, D58: a word with no row is refused by name. -/
theorem test_decode_errors :
    decodeWord true 0x5AB1 = .error (.illegalWord 0x5AB1) ∧ decodeWord true 0x8AB8 = .error (.illegalWord 0x8AB8) ∧
    decodeWord true 0xEA9F = .error (.illegalWord 0xEA9F) ∧ decodeWord true 0xFA56 = .error (.illegalWord 0xFA56) ∧
    decodeBytes true [0x12] = .error .truncated := by decide

/-- The host's numbering: bit 0 is the least significant bit of the word. -/
theorem test_decodeTableWord : decodeTableWord 16 0x8AB4 = some (.addReg 10 11) := by decide

/-- A word placed for the host is fetched and run: `LD VA,0x42`. -/
theorem test_withFetchWord :
    (after (State.withFetchWord { State.reset with inputs := [quiet] } 16 0x6A42)).reg 10 = 0x42 := by decide

/-! ## One step of each instruction -/

/-- CF11: `SYS 0x0E1` is a call. -/
theorem test_sys : let t := after (before 0x00E1 []); t.pc = 0x0E1 ∧ t.sp = 1 ∧ t.stack[1] = 0x0202 := by decide

/-- E1: the zero word halts and `pc` stays. -/
theorem test_zero_word : let t := after (before 0x0000 []); t.pc = 0x200 ∧ t.status = .halted := by decide

/-- G0: `CLS`. -/
theorem test_cls : let t := after ((before 0x00E0 [(15, 1)]).setFb (Vector.replicate 32 (-1)));
    t.fb[31] = 0 ∧ t.reg regF = 1 ∧ t.out = [.clear] := by decide

/-- CF8: `RET` with the deepest stack. -/
theorem test_ret : let s := before 0x00EE []; let t := after (s.setStack 15 (s.stack.set 15 0x0FFE));
    t.pc = 0xFFE ∧ t.sp = 14 := by decide

/-- CF9: `RET` with nothing pushed. -/
theorem test_ret_underflow : (after (before 0x00EE [])).status = .faulted .stackUnderflow := by decide

/-- CF1: `JP`. -/
theorem test_jp : (after (before 0x1ABC [])).pc = 0xABC := by decide

/-- CF5: the fifteenth nested call. -/
theorem test_call : let s := before 0x2300 []; let t := after (s.setStack 14 s.stack);
    t.pc = 0x300 ∧ t.sp = 15 ∧ t.stack[15] = 0x0202 := by decide

/-- CF6: the sixteenth. -/
theorem test_call_overflow : let s := before 0x2300 [];
    (after (s.setStack 15 s.stack)).status = .faulted .stackOverflow := by decide

/-- CF13 and CF14: `SE Vx,byte`. -/
theorem test_seImm : (after (before 0x3A42 [(10, 0x42)])).pc = 0x204 ∧ (after (before 0x3A42 [(10, 0x43)])).pc = 0x202 := by
  decide

/-- CF15 and CF16: `SNE Vx,byte`. -/
theorem test_sneImm : (after (before 0x4A42 [(10, 0x42)])).pc = 0x202 ∧ (after (before 0x4A42 [(10, 0x43)])).pc = 0x204 := by
  decide

/-- CF17 and CF18: `SE Vx,Vy`. -/
theorem test_seReg : (after (before 0x5AB0 [(10, 9), (11, 9)])).pc = 0x204 ∧
    (after (before 0x5AB0 [(10, 9), (11, 8)])).pc = 0x202 := by decide

/-- CF20 and CF21: `SNE Vx,Vy`. -/
theorem test_sneReg : (after (before 0x9AB0 [(10, 9), (11, 9)])).pc = 0x202 ∧
    (after (before 0x9AB0 [(10, 9), (11, 8)])).pc = 0x204 := by decide

/-- CF26: `JP V0` is not reduced to 12 bits. -/
theorem test_jpV0 : (after (before 0xBFFF [(0, 0xFF)])).pc = 0x10FE := by decide

/-- A3: `LD Vx,byte`. -/
theorem test_ldImm : regsOf (after (before 0x6A00 [(10, 0xFF)])) [10] = [0x00] := by decide

/-- A6: `ADD Vx,byte` wraps and leaves VF. -/
theorem test_addImm : regsOf (after (before 0x7AFF [(10, 0xFF), (15, 1)])) [10, 15] = [0xFE, 1] := by decide

/-- A9: `LD Vx,Vy`. -/
theorem test_ldReg : regsOf (after (before 0x8AB0 [(10, 1), (11, 0x99)])) [10, 11] = [0x99, 0x99] := by decide

/-- A12: `OR`. -/
theorem test_orReg : regsOf (after (before 0x8AB1 [(10, 0xF0), (11, 0x0F), (15, 1)])) [10, 11, 15] = [0xFF, 0x0F, 1] := by
  decide

/-- A14a: `AND`. -/
theorem test_andReg : regsOf (after (before 0x8AB2 [(10, 0xF0), (11, 0x3C), (15, 1)])) [10, 11, 15] = [0x30, 0x3C, 1] := by
  decide

/-- A14b: `XOR`. -/
theorem test_xorReg : regsOf (after (before 0x8AB3 [(10, 0xF0), (11, 0x3C), (15, 1)])) [10, 11, 15] = [0xCC, 0x3C, 1] := by
  decide

/-- A14 (the source's example S2): `ADD Vx,Vy` with carry. -/
theorem test_addReg : regsOf (after (before 0x8AB4 [(10, 0xFF), (11, 1)])) [10, 11, 15] = [0x00, 1, 1] := by decide

/-- A20: VF as destination holds the sum. -/
theorem test_addReg_vf : regsOf (after (before 0x8FB4 [(15, 0xFF), (11, 2)])) [15] = [1] := by decide

/-- A23 (S3): `SUB` with borrow. -/
theorem test_sub : regsOf (after (before 0x8AB5 [(10, 3), (11, 5), (15, 1)])) [10, 11, 15] = [0xFE, 5, 0] := by decide

/-- A24: equal operands do not borrow. -/
theorem test_sub_equal : regsOf (after (before 0x8AB5 [(10, 7), (11, 7)])) [10, 15] = [0, 1] := by decide

/-- A33 (S4): `SHR` reads `Vy`. -/
theorem test_shr : regsOf (after (before 0x8AB6 [(10, 0xEE), (11, 3)])) [10, 11, 15] = [1, 3, 1] := by decide

/-- A30: `SUBN` with borrow. -/
theorem test_subn : regsOf (after (before 0x8AB7 [(10, 5), (11, 3), (15, 1)])) [10, 15] = [0xFE, 0] := by decide

/-- A39: `SHL` reads `Vy`. -/
theorem test_shl : regsOf (after (before 0x8ABE [(10, 0xEE), (11, 0x81)])) [10, 11, 15] = [2, 0x81, 1] := by decide

/-- A45: `RND` masks the drawn 0xAB. -/
theorem test_rnd : regsOf (after (before 0xCA0F [])) [10] = [0x0B] := by decide

/-- M2: `LD I,addr`. -/
theorem test_ldI : (after ((before 0xAFFF []).setI 0x1234)).i = 0x0FFF := by decide

/-- M6: `ADD I,Vx` wraps at 16 bits and leaves VF. -/
theorem test_addI : let t := after ((before 0xFA1E [(10, 2)]).setI 0xFFFF); t.i = 1 ∧ t.reg regF = 0 := by decide

/-- M12: `LD F,Vx` does not mask the digit. -/
theorem test_ldF : (after (before 0xFA29 [(10, 0xFF)])).i = 0x04FB := by decide

/-- M13 (S5): `LD B,Vx` of 123. -/
theorem test_ldB : let t := after (beforeI 0xFA33 [(10, 0x7B)] 0x300 []);
    [0x300, 0x301, 0x302].map t.mem.read = [1, 2, 3] ∧ t.i = 0x300 := by decide

/-- M19: the third digit is out of range. -/
theorem test_ldB_out_of_range :
    (after (beforeI 0xFA33 [(10, 0x63)] 0xFFE [])).status = .faulted (.outOfBoundsAccess 0x1000) := by decide

/-- M21: `LD [I],V2` stores three registers, not the fourth. -/
theorem test_storeRegs : let t := after (beforeI 0xF255 [(0, 0x11), (1, 0x22), (2, 0x33), (3, 0x44)] 0x300 []);
    [0x300, 0x301, 0x302, 0x303].map t.mem.read = [0x11, 0x22, 0x33, 0] ∧ t.i = 0x300 := by decide

/-- M27: `LD V2,[I]` loads three registers, not the fourth. -/
theorem test_loadRegs : let t := after (beforeI 0xF265 [(3, 0x99)] 0x300 [0x0A, 0x0B, 0x0C, 0x0D]);
    regsOf t [0, 1, 2, 3] = [0x0A, 0x0B, 0x0C, 0x99] ∧ t.i = 0x300 := by decide

/-- K5: `SKP` with the highest key, down. -/
theorem test_skp : let t := after (before 0xEA9E [(10, 15)] ⟨0, .down, .pending, 0⟩);
    t.pc = 0x204 ∧ t.out = [.isKeyPressed 15] := by decide

/-- K6: a key index above 15. -/
theorem test_skp_fault : (after (before 0xEA9E [(10, 0x10)])).status = .faulted (.keyIndexOutOfRange 0x10) := by decide

/-- K3 and K4: `SKNP`. -/
theorem test_sknp : (after (before 0xEAA1 [(10, 7)] ⟨0, .down, .pending, 0⟩)).pc = 0x202 ∧
    (after (before 0xEAA1 [(10, 7)])).pc = 0x204 := by decide

/-- K9: `LD Vx,DT` reads before the tick. -/
theorem test_ldVxDt : let t := after ((before 0xFA07 [] ⟨0, .up, .pending, 1⟩).setDt 0x3C); t.reg 10 = 0x3C ∧ t.dt = 0x3B := by
  decide

/-- K18: `LD Vx,K`. -/
theorem test_ldVxK : let t := after (before 0xFA0A [(10, 0x99)] ⟨0, .up, .released 7, 0⟩);
    t.reg 10 = 7 ∧ t.pc = 0x202 ∧ t.out = [.waitForKeyRelease] := by decide

/-- R98, R194: while it is held nothing moves, a tick included. -/
theorem test_ldVxK_held : let t := after ((before 0xFA0A [(10, 0x99)] ⟨0, .up, .pending, 1⟩).setDt 2);
    t.pc = 0x200 ∧ t.reg 10 = 0x99 ∧ t.dt = 2 ∧ t.out = [] := by decide

/-- K11: `LD DT,Vx`, then the tick of the same cycle. -/
theorem test_ldDtVx : (after (before 0xFA15 [(10, 0x3C)] ⟨0, .up, .pending, 1⟩)).dt = 0x3B := by decide

/-- K17: `LD ST,Vx` and the tick of the same cycle: both edge commands. -/
theorem test_ldStVx : let t := after (before 0xFA18 [(10, 1)] ⟨0, .up, .pending, 1⟩);
    t.st = 0 ∧ t.out = [.setAudioEnabled true, .setAudioEnabled false] := by decide

/-- G7 (S7): eight pixels at column 60 wrap, and the redraw is announced. -/
theorem test_drw : let t := after (beforeI 0xD011 [(0, 0x3C)] 0x300 [0xFF]);
    t.fb[0] = 0xF00000000000000F ∧ t.out = [.requestRedraw t.fb] := by decide

/-- G11: a collision in the first of two rows. -/
theorem test_drw_collision :
    let s := beforeI 0xD012 [] 0x300 [0xF0, 0x0F]
    let t := after (s.setFb ((s.fb.set 0 0x8000000000000000).set 1 0xF000000000000000))
    t.reg regF = 1 ∧ t.fb[0] = 0x7000000000000000 ∧ t.fb[1] = 0xFF00000000000000 := by decide

/-- E7: the second byte of the fetch is out of range. -/
theorem test_fetch_out_of_range :
    (after (State.reset.setPc 0xFFF)).status = .faulted (.outOfBoundsAccess 0x1000) := by decide

/-- R186: a faulted machine runs no cycle. -/
theorem test_faulted_stops : nextOf (step (State.reset.setStatus (.faulted .stackOverflow))) = none := by decide

/-! ## Witnesses: concrete states and operands that meet an obligation's hypotheses -/

/-- The parameters with no pre-increment, the last row's collision, the catch-up and the lenient keys. -/
def otherCfg : Config :=
  { Config.default with
    stackPreincrement := false, shiftSource := .vx, drwCollision := .lastRow, timerCatchup := true, keyOor := .notPressed }

/-- Reset with the other parameters. -/
def other : State := { State.reset with cfg := otherCfg }

/-- A running machine in mid-program: 15 calls deep, sounding, `LD V0,0x05` next. -/
def busy : State :=
  { State.reset with
    sp := 15, st := 1, out := [.setAudioEnabled true], stack := Vector.replicate 16 0x0FFE,
    mem := [(0x200, 0x60), (0x201, 0x05)], inputs := [quiet] }

theorem witness_DecodeOfEncodeIsTheInstruction : WellFormed (.sys 0x0E1) = true := by decide

theorem witness_EncodeOfDecodeIsTheWord : decodeWord true 0x9120 = .ok (.sneReg 1 2) := by decide

theorem witness_DecoderFollowsTheOpcodeMap : (0x00E1 : Word) &&& rowMask (.sys 0) = rowMatch (.sys 0) := by decide

theorem witness_IllegalWordsAreTheTabulatedOnes :
    isIllegal 0x5001 = true ∧ isIllegal 0x5000 = false ∧ fieldOp 0x5001 = 0x5 ∧ fieldOp 0x900F = 0x9 := by decide

theorem witness_CallsPushTheReturnAddress :
    (if (State.reset.setStack 14 State.reset.stack).cfg.stackPreincrement then 14 + 1 else 14) < 16 ∧
    ¬ (if (State.reset.setStack 15 State.reset.stack).cfg.stackPreincrement then 15 + 1 else 15) < 16 ∧
    (if (other.setStack 15 other.stack).cfg.stackPreincrement then 15 + 1 else 15) < 16 ∧
    ¬ (if (other.setStack 16 other.stack).cfg.stackPreincrement then 16 + 1 else 16) < 16 := by decide

theorem witness_ReturnPopsTheReturnAddress :
    busy.sp ≠ 0 ∧ (if busy.cfg.stackPreincrement then busy.sp.toNat else busy.sp.toNat - 1) < 16 ∧
    (other.setStack 16 other.stack).sp ≠ 0 ∧ (if other.cfg.stackPreincrement then 16 else 16 - 1) < 16 ∧
    State.reset.sp = 0 := by decide

theorem witness_ReturnFromNoSlotPopsAFreeValue :
    16 ≤ (if State.reset.cfg.stackPreincrement then (State.reset.setStack 16 State.reset.stack).sp.toNat
      else (State.reset.setStack 16 State.reset.stack).sp.toNat - 1) := by decide

theorem witness_CallThenReturnResumes :
    (if State.reset.cfg.stackPreincrement then (State.reset.setStack 14 State.reset.stack).sp.toNat + 1
      else (State.reset.setStack 14 State.reset.stack).sp.toNat) < 16 := by decide

theorem witness_ShiftsMoveTheSourceByOneBit :
    (2 : Reg) = (if State.reset.cfg.shiftSource = .vy then 2 else 1) ∧ (1 : Reg) = (if other.cfg.shiftSource = .vy then 2 else 1) := by
  decide

theorem witness_FlagsAreZeroOrOne :
    (14 : Reg) ≠ regF ∧ State.reset.cfg.drwCollision = .orRows ∧
    ∃ t, exec (.drw 0 1 5) State.reset = .next t ∧ t.isFaulted = false := ⟨by decide, rfl, _, rfl, by decide⟩

theorem witness_BcdStoresThreeDigits : (busy.setI 0xFFD).mem.wf ∧ effectiveAddress (busy.setI 0xFFD) 2 ≤ 0xFFF := by
  decide

theorem witness_StoreRegsWritesTheBlock :
    (busy.setI 0xFF0).mem.wf ∧ effectiveAddress (busy.setI 0xFF0) (15 : Reg).toNat ≤ 0xFFF := by decide

theorem witness_LoadRegsReadsTheBlock : effectiveAddress (busy.setI 0xFF0) (15 : Reg).toNat ≤ 0xFFF := by decide

theorem witness_OutOfRangeFaultsAtTheFirstAddress :
    (busy.setI 0xFFE).i.toNat + 2 > 0xFFF ∧ (busy.setI 0xFFE).i.toNat + (2 : Reg).toNat > 0xFFF ∧
    (2 : Nibble) ≠ 0 ∧ (busy.setI 0xFFF).i.toNat + (2 : Nibble).toNat - 1 > 0xFFF ∧
    (busy.setPc 0xFFF).status = .running ∧ (busy.setPc 0xFFF).pc.toNat ≥ 0xFFF := by decide

theorem witness_StoreThenLoadRestores :
    (busy.setI 0xFFF).mem.wf ∧ effectiveAddress (busy.setI 0xFFF) (0 : Reg).toNat ≤ 0xFFF := by decide

theorem witness_StoredBytesAreFetched :
    (busy.setI 0xFFE).mem.wf ∧ effectiveAddress (busy.setI 0xFFE) (1 : Reg).toNat ≤ 0xFFF ∧ (0 : Reg).toNat < (1 : Reg).toNat ∧
    (0xFFE : Word).toNat = effectiveAddress (busy.setI 0xFFE) (0 : Reg).toNat ∧
    (busy.setI 0xFFD).mem.wf ∧ effectiveAddress (busy.setI 0xFFD) 2 ≤ 0xFFF ∧
    (0xFFD : Word).toNat = effectiveAddress (busy.setI 0xFFD) 0 ∧
    (0xFFE : Word).toNat = effectiveAddress (busy.setI 0xFFD) 1 := by decide

theorem witness_KeySkipsFollowTheAnswer : ((busy.setReg 3 15).reg 3).toNat ≤ 15 := by decide

theorem witness_KeyIndexAboveFifteen :
    ((busy.setReg 3 16).reg 3).toNat > 15 ∧ (busy.setReg 3 16).cfg.keyOor = .fault ∧
    ((other.setReg 3 16).reg 3).toNat > 15 ∧ (other.setReg 3 16).cfg.keyOor = .notPressed := by decide

theorem witness_WaitForKeyStoresTheReleasedKey :
    (before 0xFA0A [] ⟨0, .up, .released 15, 0⟩).releaseAnswer = .released 15 ∧ busy.releaseAnswer = .pending ∧
    busy.loseCollaborator.releaseAnswer = .unavailable := by decide

theorem witness_TimerCheckDecrementsByTheTick :
    1 = (if State.reset.cfg.timerCatchup then 2 else min 1 2) ∧ 2 = (if other.cfg.timerCatchup then 2 else min 1 2) := by decide

theorem witness_DrawIsThePixelwiseXor :
    effectiveAddress (busy.setI 0xFF1) ((15 : Nibble).toNat - 1) ≤ 0xFFF ∧ busy.cfg.drwCollision = .orRows := by decide

/-- The form of no rows, with `I` out of range. -/
theorem witness_DrawIsThePixelwiseXor_empty :
    ((0 : Nibble) = 0 ∨ effectiveAddress (busy.setI 0xFFFF) ((0 : Nibble).toNat - 1) ≤ 0xFFF) ∧
    ¬ effectiveAddress (busy.setI 0xFFFF) ((0 : Nibble).toNat - 1) ≤ 0xFFF := by decide

theorem witness_DrawWithLastRowCollision :
    other.cfg.drwCollision = .lastRow ∧ effectiveAddress (other.setI 0xFF1) ((15 : Nibble).toNat - 1) ≤ 0xFFF ∧
    (31 : Fin 32).val = ((other.setReg 1 17).reg 1 |>.toNat) + ((15 : Nibble).toNat - 1) := by decide

theorem witness_DrawTwiceRestoresTheScreen :
    effectiveAddress (busy.setI 0xFFF) ((1 : Nibble).toNat - 1) ≤ 0xFFF ∧ busy.cfg.drwCollision = .orRows ∧
    effectiveAddress (other.setI 0xFFF) ((1 : Nibble).toNat - 1) ≤ 0xFFF ∧ other.cfg.drwCollision = .lastRow ∧ (1 : Nibble) ≠ 0 ∧
    ∃ t, exec (.drw 15 14 1) (busy.setI 0xFFF) = .next t ∧
      (t.setV busy.v).reg 15 = (busy.setI 0xFFF).reg 15 ∧ (t.setV busy.v).reg 14 = (busy.setI 0xFFF).reg 14 :=
  ⟨by decide, rfl, by decide, rfl, by decide, _, rfl, rfl, rfl⟩

theorem witness_StepRunsTheDecodedInstruction :
    busy.status = .running ∧ busy.pc.toNat + 1 ≤ 0xFFF ∧
    wordOfBytes (busy.mem.read busy.pc.toNat) (busy.mem.read (busy.pc.toNat + 1)) ≠ 0 ∧
    decodeWord busy.cfg.strictLowNibble (wordOfBytes (busy.mem.read busy.pc.toNat) (busy.mem.read (busy.pc.toNat + 1))) =
      .ok (.ldImm 0 5) := by decide

theorem witness_CycleEndsWithRedrawAndTimerCheck :
    busy.status = .running ∧ (∀ x, Instr.cls = .ldVxK x → busy.releaseAnswer ≠ .pending) ∧
    (busy.setStatus (.faulted .stackOverflow)).status = .faulted .stackOverflow ∧ busy.releaseAnswer = .pending := by
  refine ⟨rfl, ?_, rfl, by decide⟩
  intro x h
  cases h

theorem witness_ZeroWordHalts :
    let s := State.reset.setPc 0xFFE
    s.status = .running ∧ s.cfg.zeroWordHalts = true ∧ s.pc.toNat + 1 ≤ 0xFFF ∧ s.mem.read s.pc.toNat = 0 ∧
      s.mem.read (s.pc.toNat + 1) = 0 := by decide

theorem witness_IllegalWordFaults :
    let s := before 0x5AB1 []
    s.status = .running ∧ s.cfg.strictLowNibble = true ∧ s.pc.toNat + 1 ≤ 0xFFF ∧
      0x5AB1 = wordOfBytes (s.mem.read s.pc.toNat) (s.mem.read (s.pc.toNat + 1)) ∧ isIllegal 0x5AB1 = true := by decide

theorem witness_IllegalWordFaults_lenient :
    let s := { before 0xFAFF [] with cfg := { Config.default with strictLowNibble := false } }
    s.status = .running ∧ s.cfg.strictLowNibble = false ∧ s.pc.toNat + 1 ≤ 0xFFF ∧
      0xFAFF = wordOfBytes (s.mem.read s.pc.toNat) (s.mem.read (s.pc.toNat + 1)) ∧ isIllegal 0xFAFF = true ∧
      fieldOp 0xFAFF ∈ [0x8, 0xE, 0xF] := by decide

theorem witness_FaultLeavesOnlyItsMark :
    let s := busy
    let s' := busy.setPc 0x300
    s'.out = s.out ∧ s'.cfg = s.cfg ∧ s'.inputs = s.inputs ∧ s'.drawn = s.drawn ∧ s'.collabGone = s.collabGone := by decide

theorem witness_StoppedMachineStaysStopped :
    (busy.setStatus .halted).status = .halted ∧ (busy.setStatus (.faulted .stackUnderflow)).status = .faulted .stackUnderflow := by
  decide

theorem witness_HeldEngineStandsStill :
    let s := before 0xF30A []
    s.status = .running ∧ s.pc.toNat + 1 ≤ 0xFFF ∧
      wordOfBytes (s.mem.read s.pc.toNat) (s.mem.read (s.pc.toNat + 1)) = wordXKK 0xF 3 0x0A ∧ s.releaseAnswer = .pending := by
  decide

theorem witness_EachInstructionRaisesItsOwnFault :
    busy.isFaulted = false ∧ ∃ t, exec (.call 0x300) busy = .next t ∧ t.status = .faulted .stackOverflow :=
  ⟨rfl, _, rfl, rfl⟩

theorem witness_BootBuildsTheMemoryImage :
    defaultFont.length = 80 ∧ (List.replicate 3584 (0xFF : Byte)).length ≤ 3584 ∧ (List.replicate 3585 (0xFF : Byte)).length > 3584 :=
  ⟨by decide, by rw [List.length_replicate], by rw [List.length_replicate]; decide⟩

theorem witness_PlacedWordRunsNext :
    let s := busy.setPc 0xFFE
    s.mem.wf ∧ s.pc.toNat + 1 ≤ 0xFFF ∧ (0x6A42 : Word) ≠ 0 ∧ decodeWord s.cfg.strictLowNibble 0x6A42 = .ok (.ldImm 10 0x42) := by
  decide

theorem busy_inv : Inv busy := by
  refine ⟨by decide, fun _ => ⟨by unfold SpLegal; decide, ⟨by decide, by decide⟩, ?_, by decide⟩⟩
  exact ⟨rfl, trivial⟩

theorem witness_EveryStepKeepsTheInvariant : Inv busy ∧ ∃ t, step busy = .next t := ⟨busy_inv, _, rfl⟩

theorem witness_OnlyTheListedWritersWrite :
    ∃ t, exec (.ldImm 0 5) busy = .next t ∧ t.isFaulted = false ∧ mayWrite (.ldImm 0 5) busy (.reg 1) = false :=
  ⟨_, rfl, rfl, by decide⟩

/-- The table's edges: a call beside the slot it pushes to, a store past its last byte, a draw past its last row. -/
theorem witness_OnlyTheListedWritersWrite_edges :
    mayWrite (.call 0x300) busy (.slot 15) = false ∧ mayWrite (.call 0x300) State.reset (.slot 1) = true ∧
    mayWrite (.ldB 0) busy (.byte 2) = true ∧ mayWrite (.ldB 0) busy (.byte 3) = false ∧
    mayWrite (.storeRegs 15) busy (.byte 15) = true ∧ mayWrite (.storeRegs 15) busy (.byte 16) = false ∧
    mayWrite (.drw 0 0 2) busy (.row 1) = true ∧ mayWrite (.drw 0 0 2) busy (.row 2) = false := by decide

theorem witness_StepsOnlyAddToTheRecord : ∃ t, step busy.loseCollaborator = .next t ∧ busy.loseCollaborator.collabGone = true :=
  ⟨_, rfl, rfl⟩

theorem witness_SoundTimerIsNotObservable : ∃ t, step busy = .next t := ⟨_, rfl⟩

end Sys2Proof.Tests
end

section
/-! SUPPORT. What executing an instruction can do, said once over the 35 instructions (spec/40_engine_cycle.md R95): the
statements about every step are proved from it. -/

namespace Sys2Proof.Machine

/-- Everything an instruction can make of the state it executes in. -/
inductive Effect (s : State) : State → Prop where
  /-- The instruction faults before it emits anything (R181). -/
  | fault (f : Fault) : Effect s (enterFault f s)
  /-- Registers, `I`, `DT`, memory or the rows are written; memory stays canonical. -/
  | data (v : Vector Byte 16) (i : Word) (dt : Byte) (m : Memory) (fb : Framebuffer) (hm : s.mem.wf → m.wf) :
      Effect s { s with v := v, i := i, dt := dt, mem := m, fb := fb }
  /-- `CLS` (R170). -/
  | clear : Effect s ((s.setFb blankFb).emit .clear)
  /-- A jump, `nnn + V0` the highest target (R115, R122). -/
  | jump (w : Word) (hw : w.toNat ≤ 0x10FE) : Effect s (s.setPc w)
  /-- A skip, or a key query that asks nothing (R112, R163). -/
  | skip (q : Bool) : Effect s (skipIf q s)
  /-- A call that finds a slot (R110, R116). -/
  | call (nnn : Addr12) (h : pushSlot s < 16) :
      Effect s ((s.setStack (s.sp + 1) (s.stack.set (pushSlot s) s.pc h)).setPc (addrOperand nnn))
  /-- A return from a stack that is not empty (R111, R114). -/
  | ret (h : s.sp.toNat ≠ 0) : Effect s ((s.setStack (s.sp - 1) s.stack).setPc (topOfStack s))
  /-- A key query that is answered (R163). -/
  | query (q : Bool) (k : Key) : Effect s (skipIf q (s.emit (.isKeyPressed k)))
  /-- A key query that finds the collaborator gone (R209). -/
  | queryGone (q : Bool) (k : Key) : Effect s (skipIf q (s.emit (.isKeyPressed k)).loseCollaborator)
  /-- The wait for a key goes on (R98, R164). -/
  | hold : Effect s (hold s)
  /-- The wait for a key ends with a key (R164). -/
  | released (x : Reg) (b : Byte) : Effect s ((s.emit .waitForKeyRelease).setReg x b)
  /-- The wait for a key finds the collaborator gone (R197). -/
  | waitGone : Effect s (enterFault .collaboratorUnavailable (s.emit .waitForKeyRelease).loseCollaborator)
  /-- `ST` is written, with the audio edge (R167). -/
  | sound (b : Byte) : Effect s (writeSt b s)

namespace Effect

theorem setReg (s : State) (x : Reg) (b : Byte) : Effect s (s.setReg x b) :=
  .data _ s.i s.dt s.mem s.fb id

theorem writeFlagged (s : State) (x : Reg) (q : Bool) (b : Byte) : Effect s (writeFlagged s x q b) :=
  .data _ s.i s.dt s.mem s.fb id

theorem setI (s : State) (w : Word) : Effect s (s.setI w) :=
  .data s.v w s.dt s.mem s.fb id

theorem writeCollision (s : State) (n : Nibble) (q : Bool) (fb : Framebuffer) :
    Effect s (writeCollision n q (s.setFb fb)) := by
  unfold Machine.writeCollision
  split
  · exact .data _ s.i s.dt s.mem fb id
  · split
    · exact .data s.v s.i s.dt s.mem fb id
    · exact .data _ s.i s.dt s.mem fb id

/-- A call pushes `pc` and jumps, or overflows (R110, R184). -/
theorem of_push {s t : State} {nnn : Addr12} (h : push s.pc s (fun u => u.setPc (addrOperand nnn)) = .next t) :
    Effect s t := by
  rw [push_eq] at h
  split at h <;> obtain rfl := Host.Outcome.next.inj h
  · next hp => exact .call nnn hp
  · exact .fault _

/-- A return pops into `pc`, or underflows (R111, R185). -/
theorem of_pop {s t : State} (h : pop s (fun w u => u.setPc w) = .next t) : Effect s t := by
  rw [pop_eq] at h
  split at h <;> obtain rfl := Host.Outcome.next.inj h
  · exact .fault _
  · next hp => exact .ret hp

/-- What a key query followed by a skip does (R160, R161). -/
theorem of_keyDown {s t : State} {v : Byte} {c : Bool → Bool}
    (h : keyDown v s (fun q u => skipIf (c q) u) = .next t) : Effect s t := by
  obtain ⟨-, -, rfl⟩ | ⟨-, -, rfl⟩ | ⟨-, -, rfl⟩ | ⟨-, -, rfl⟩ := keyDown_cases h
  · exact .fault _
  · exact .skip _
  · exact .queryGone _ _
  · exact .query _ _

/-- A checked access that only faults or goes on to an effect is an effect (R56). -/
theorem of_orOutOfBounds {α : Type} {r : Except Nat α} {s t : State} {k : α → State}
    (h : orOutOfBounds r s k = .next t) (hk : ∀ a, r = .ok a → Effect s (k a)) : Effect s t := by
  obtain ⟨a, ha, rfl⟩ | ⟨a, -, rfl⟩ := orOutOfBounds_cases h
  · exact hk a ha
  · exact .fault _

/-- A store into memory keeps the canonical form. -/
theorem of_store {s t : State} {bs : List Byte}
    (h : orOutOfBounds (s.mem.writeBlock (effectiveAddress s 0) bs) s (fun m => s.setMem m) = .next t) : Effect s t :=
  of_orOutOfBounds h fun m hm => .data s.v s.i s.dt m s.fb fun hs => Memory.writeBlock_wf hs hm

/-- The wait for a key (R164). -/
theorem of_execLdVxK {s t : State} {x : Reg} (h : execLdVxK x s = .next t) : Effect s t := by
  obtain rfl := Host.Outcome.next.inj h
  split
  · exact .hold
  · exact .released _ _
  · exact .waitGone

end Effect

theorem addrOperand_toNat (nnn : Addr12) : (addrOperand nnn).toNat = nnn.toNat := by
  have := nnn.isLt
  simp only [addrOperand, BitVec.truncate_eq_setWidth, BitVec.toNat_setWidth]
  omega

theorem addrOperand_le (nnn : Addr12) : (addrOperand nnn).toNat ≤ 0xFFF := by
  have := nnn.isLt
  rw [addrOperand_toNat]
  omega

/-- The highest target of `JP V0,addr` is 0xFFF + 0xFF (R25, R122). -/
theorem jpV0_target_le (nnn : Addr12) (b : Byte) : (addrOperand nnn + wideOperand b).toNat ≤ 0x10FE := by
  have := addrOperand_le nnn
  have hb : (wideOperand b).toNat = b.toNat := by
    have := b.isLt
    simp only [wideOperand, BitVec.truncate_eq_setWidth, BitVec.toNat_setWidth]
    omega
  have := b.isLt
  rw [BitVec.toNat_add]
  omega

/-- Executing an instruction does one of the things listed (R95). -/
theorem exec_effect {i : Instr} {s t : State} (h : exec i s = .next t) : Effect s t := by
  cases i with
  | sys nnn | call nnn => exact .of_push h
  | ret => exact .of_pop h
  | cls =>
    obtain rfl := Host.Outcome.next.inj h
    exact .clear
  | jp nnn =>
    obtain rfl := Host.Outcome.next.inj h
    exact .jump _ ((addrOperand_le nnn).trans (by decide))
  | jpV0 nnn =>
    obtain rfl := Host.Outcome.next.inj h
    exact .jump _ (jpV0_target_le nnn _)
  | seImm x a | sneImm x a | seReg x a | sneReg x a =>
    obtain rfl := Host.Outcome.next.inj h
    exact .skip _
  | ldImm x a | addImm x a | ldReg x a | orReg x a | andReg x a | xorReg x a | rnd x a =>
    obtain rfl := Host.Outcome.next.inj h
    exact .setReg _ _ _
  | ldVxDt x =>
    obtain rfl := Host.Outcome.next.inj h
    exact .setReg _ _ _
  | addReg x y | sub x y | subn x y | shr x y | shl x y =>
    obtain rfl := Host.Outcome.next.inj h
    exact .writeFlagged _ _ _ _
  | ldI a | addI a | ldF a =>
    obtain rfl := Host.Outcome.next.inj h
    exact .setI _ _
  | drw x y n => exact .of_orOutOfBounds h fun _ _ => .writeCollision _ _ _ _
  | skp x => exact .of_keyDown (c := fun q => q) h
  | sknp x => exact .of_keyDown (c := fun q => !q) h
  | ldVxK x => exact .of_execLdVxK h
  | ldDtVx x =>
    obtain rfl := Host.Outcome.next.inj h
    exact .data s.v s.i _ s.mem s.fb id
  | ldStVx x =>
    obtain rfl := Host.Outcome.next.inj h
    exact .sound _
  | ldB x | storeRegs x => exact .of_store h
  | loadRegs x => exact .of_orOutOfBounds h fun _ _ => .data _ s.i s.dt s.mem s.fb id

end Sys2Proof.Machine
end

section
/-! SUPPORT. The invariant of the machine: the audio commands, the stack and `pc` under every effect, and the proof that reset
has it and every step keeps it (spec/10_state.md R25, R28; spec/60_exceptions.md R195, R205). -/

namespace Sys2Proof.Machine

/-! ## The audio commands (R195, R205) -/

theorem audioCommands_append (xs ys : List Command) :
    audioCommands (xs ++ ys) = audioCommands xs ++ audioCommands ys :=
  List.filterMap_append

/-- An alternating list stays so when the opposite of its last value is put behind it. -/
theorem Alternates.concat {b : Bool} {l : List Bool} (h : Alternates b l) :
    Alternates b (l ++ [!(l.getLast?.getD (!b))]) := by
  induction l generalizing b with
  | nil => exact ⟨by simp, trivial⟩
  | cons c l ih =>
    obtain ⟨rfl, h⟩ := h
    refine ⟨rfl, ?_⟩
    cases l with
    | nil => exact ⟨by simp, trivial⟩
    | cons d l =>
      have hlast : (d :: l).getLast?.getD c = (d :: l).getLast?.getD (!c) := by simp [List.getLast?_cons]
      simpa [hlast] using ih h

/-- Audio legality speaks of the level and of the audio commands alone. -/
theorem AudioLegal.congr {s t : State} (h : AudioLegal s) (hst : t.st = s.st)
    (hout : audioCommands t.out = audioCommands s.out) : AudioLegal t := by
  unfold AudioLegal State.audioOn at *
  rwa [hst, hout]

theorem AudioLegal.emit {s : State} (h : AudioLegal s) {c : Command} (hc : audioCommands [c] = []) :
    AudioLegal (s.emit c) :=
  h.congr rfl (by rw [State.emit_out, audioCommands_append, hc, List.append_nil])

theorem audioCommands_audioEdge (a b : Byte) :
    audioCommands (audioEdge a b) = if (b != 0) = (a != 0) then [] else [b != 0] := by
  unfold audioEdge
  by_cases h : (b != 0) = (a != 0)
  · rw [if_neg (by simpa using h), if_pos h]
    rfl
  · rw [if_pos (by simpa using h), if_neg h]
    rfl

/-- Writing `ST` with its edge command keeps the commands alternating and agreeing with the level (R195). -/
theorem AudioLegal.writeSt {s t : State} (h : AudioLegal s) (hout : t.out = s.out ++ audioEdge s.st t.st) :
    AudioLegal t := by
  obtain ⟨halt, hlast⟩ := h
  have hcmds : audioCommands t.out = audioCommands s.out ++ audioCommands (audioEdge s.st t.st) := by
    rw [hout, audioCommands_append]
  unfold State.audioOn at hlast
  unfold AudioLegal State.audioOn
  rw [hcmds, audioCommands_audioEdge]
  split
  · next he => exact ⟨by simpa using halt, by rw [he, hlast, List.append_nil]⟩
  · next he =>
    have hnew : (t.st != 0) = !((audioCommands s.out).getLast?.getD (!true)) := by
      rw [Bool.not_true, ← hlast]
      exact Bool.eq_not_of_ne he
    refine ⟨?_, by simp⟩
    rw [hnew]
    exact halt.concat

/-! ## The state an instruction executes in -/

/-- What the invariant gives where an instruction executes: `pc` is the address after a fetched word (R91, R94). -/
structure Ready (s : State) : Prop where
  mem : s.mem.wf
  sp : SpLegal s
  pc_ge : 2 ≤ s.pc.toNat
  pc_le : s.pc.toNat ≤ 0x1000
  slots : ∀ k : Fin 16, s.stack[k].toNat ≤ 0x1000
  audio : AudioLegal s

/-- A fetch that gives a word has both its bytes in memory (R91). -/
theorem pc_le_of_fetch {s : State} {w : Word} (h : fetch s = .ok w) : s.pc.toNat ≤ 0xFFE := by
  simp only [fetch, lastAddr] at h
  split at h
  · cases h
  · split at h
    · cases h
    · omega

/-- The state in which a fetched instruction executes (R94). -/
theorem ready_advance {s : State} {w : Word} (hs : Inv s) (hf : s.isFaulted = false) (hw : fetch s = .ok w) :
    Ready (advance s) := by
  obtain ⟨hm, hl⟩ := hs
  obtain ⟨hsp, ⟨-, hk⟩, ha⟩ := hl hf
  have hpc := pc_le_of_fetch hw
  have hadd : (advance s).pc.toNat = s.pc.toNat + 2 := by
    rw [advance, State.setPc_pc]
    bv_omega
  exact { mem := hm, sp := hsp, pc_ge := by omega, pc_le := by omega, slots := hk, audio := ha.congr rfl rfl }

theorem inv_enterFault (f : Fault) (s : State) : Inv (enterFault f s) :=
  ⟨enterFault_mem_wf f s, by simp [State.isFaulted]⟩

/-- A push that finds a slot leaves `SP` legal (R110). -/
theorem sp_push_le {s : State} (h : pushSlot s < 16) : (s.sp + 1).toNat ≤ maxSp s.cfg := by
  have hle : (s.sp + 1).toNat ≤ s.sp.toNat + 1 := by
    rw [BitVec.toNat_add]
    exact Nat.mod_le _ _
  unfold pushSlot at h
  unfold maxSp
  cases hp : s.cfg.stackPreincrement <;> simp only [hp, Bool.false_eq_true, if_true, if_false] at h ⊢ <;> omega

namespace Ready
variable {s : State} (hs : Ready s)
include hs

/-- The value a return pops from a legal stack is a slot's (R28, R111). -/
theorem topOfStack_le : (topOfStack s).toNat ≤ 0x1000 := by
  have hp : popSlot s < 16 := by
    have := hs.sp
    unfold SpLegal maxSp at this
    unfold popSlot
    cases hp : s.cfg.stackPreincrement <;> simp only [hp, Bool.false_eq_true, if_true, if_false] at this ⊢ <;> omega
  rw [topOfStack_eq, dif_pos hp]
  exact hs.slots ⟨popSlot s, hp⟩

/-- A pop from a stack that is not empty leaves `SP` legal (R111). -/
theorem sp_pop_le (h : s.sp.toNat ≠ 0) : (s.sp - 1).toNat ≤ maxSp s.cfg := by
  have hsub : (s.sp - 1).toNat = s.sp.toNat - 1 := by bv_omega
  have hle : s.sp.toNat ≤ maxSp s.cfg := hs.sp
  omega

/-- A pushed return address is a slot value in bounds (R25). -/
theorem slots_push (h : pushSlot s < 16) (k : Fin 16) : (s.stack.set (pushSlot s) s.pc h)[k].toNat ≤ 0x1000 := by
  have e : (s.stack.set (pushSlot s) s.pc h)[k] = if pushSlot s = k.val then s.pc else s.stack[k] := by
    simp only [Fin.getElem_fin, Vector.getElem_set]
  rw [e]
  split
  · exact hs.pc_le
  · exact hs.slots k

/-- The invariant of a state that differs by `pc` alone, where that is in bounds. -/
theorem inv_setPc {w : Word} (hw : w.toNat ≤ 0x10FE) : Inv (s.setPc w) :=
  ⟨hs.mem, fun _ => ⟨hs.sp, ⟨hw, hs.slots⟩, hs.audio.congr rfl rfl⟩⟩

theorem inv_skipIf (q : Bool) : Inv (skipIf q s) := by
  have hle := hs.pc_le
  cases q with
  | false => exact hs.inv_setPc (w := s.pc) (by omega)
  | true =>
    refine hs.inv_setPc (w := s.pc + 2) ?_
    bv_omega

theorem inv_hold : Inv (hold s) := by
  have hge := hs.pc_ge
  have hle := hs.pc_le
  refine hs.inv_setPc (w := s.pc - 2) ?_
  bv_omega

/-- A command that is not about audio leaves the state ready. -/
theorem emit {c : Command} (hc : audioCommands [c] = []) : Ready (s.emit c) :=
  { mem := hs.mem, sp := hs.sp, pc_ge := hs.pc_ge, pc_le := hs.pc_le, slots := hs.slots, audio := hs.audio.emit hc }

theorem loseCollaborator : Ready s.loseCollaborator :=
  { mem := hs.mem, sp := hs.sp, pc_ge := hs.pc_ge, pc_le := hs.pc_le, slots := hs.slots, audio := hs.audio.congr rfl rfl }

/-- The invariant where everything the effect writes is outside it: registers, `I`, `DT`, rows. -/
theorem inv_of_kept {t : State} (hm : t.mem.wf) (hsp : t.sp = s.sp) (hcfg : t.cfg = s.cfg) (hpc : t.pc = s.pc)
    (hk : t.stack = s.stack) (ha : AudioLegal t) : Inv t := by
  refine ⟨hm, fun _ => ⟨?_, ⟨?_, ?_⟩, ha⟩⟩
  · rw [SpLegal, hsp, hcfg]
    exact hs.sp
  · rw [hpc]
    exact hs.pc_le.trans (by decide)
  · rw [hk]
    exact hs.slots

end Ready

/-- Every effect of an instruction keeps the invariant. -/
theorem Effect.keeps_inv {s t : State} (h : Effect s t) (hs : Ready s) : Inv t := by
  cases h with
  | fault f => exact inv_enterFault _ _
  | waitGone => exact inv_enterFault _ _
  | data v i dt m fb hm => exact hs.inv_of_kept (hm hs.mem) rfl rfl rfl rfl (hs.audio.congr rfl rfl)
  | clear => exact hs.inv_of_kept hs.mem rfl rfl rfl rfl (hs.audio.emit (s := s) rfl)
  | jump w hw => exact hs.inv_setPc hw
  | skip q => exact hs.inv_skipIf q
  | call nnn h =>
    exact ⟨hs.mem, fun _ => ⟨sp_push_le h, ⟨(addrOperand_le nnn).trans (by decide), hs.slots_push h⟩,
      hs.audio.congr rfl rfl⟩⟩
  | ret h =>
    exact ⟨hs.mem, fun _ => ⟨hs.sp_pop_le h, ⟨hs.topOfStack_le.trans (by decide), hs.slots⟩,
      hs.audio.congr rfl rfl⟩⟩
  | query q k => exact (hs.emit rfl).inv_skipIf q
  | queryGone q k => exact (hs.emit rfl).loseCollaborator.inv_skipIf q
  | hold => exact hs.inv_hold
  | released x b => exact hs.inv_of_kept hs.mem rfl rfl rfl rfl (hs.audio.emit (s := s) rfl)
  | sound b =>
    rw [writeSt_eq]
    exact hs.inv_of_kept hs.mem rfl rfl rfl rfl (hs.audio.writeSt rfl)

/-! ## The end of the cycle -/

/-- The invariant does not see the draws. -/
theorem Inv.nextDraw {s : State} (h : Inv s) : Inv s.nextDraw := h

theorem Inv.halt {s : State} (h : Inv s) (hf : s.isFaulted = false) : Inv (Machine.halt s) :=
  ⟨h.1, fun _ => h.2 hf⟩

theorem Inv.notifyRedraw {s : State} (h : Inv s) (i : Instr) : Inv (notifyRedraw i s) := by
  unfold Machine.notifyRedraw
  split
  · exact ⟨h.1, fun hf => ⟨(h.2 hf).1, (h.2 hf).2.1, (h.2 hf).2.2.emit rfl⟩⟩
  · exact h

theorem Inv.timerCheck {s : State} (h : Inv s) : Inv (timerCheck s) := by
  obtain ⟨d, b, e⟩ := timerCheck_cases s
  rw [e]
  exact ⟨h.1, fun hf => ⟨(h.2 hf).1, (h.2 hf).2.1, (h.2 hf).2.2.writeSt rfl⟩⟩

theorem Inv.endCycle {s : State} (h : Inv s) (i : Instr) : Inv (endCycle i s) := by
  obtain ⟨-, e⟩ | ⟨-, -, e⟩ | ⟨-, -, e⟩ := endCycle_cases i s <;> rw [e]
  · exact h.nextDraw
  · exact h
  · exact (h.notifyRedraw i).timerCheck.nextDraw

/-- Settles O49: by what a step can do; the instruction's effect keeps the invariant from the advanced `pc`, and so does the
end of the cycle. -/
theorem everyStepKeepsTheInvariant : Obligations.EveryStepKeepsTheInvariant := by
  intro s t hs h
  obtain ⟨-, rfl⟩ | ⟨hr, hc⟩ := step_cases h
  · exact hs
  have hf : s.isFaulted = false := by simp [State.isFaulted, hr]
  obtain ⟨a, -, rfl⟩ | ⟨w, hw, ⟨-, rfl⟩ | ⟨-, ⟨e, -, rfl⟩ | ⟨i, u, -, hu, rfl⟩⟩⟩ := hc
  · exact inv_enterFault _ _
  · exact hs.halt hf
  · exact inv_enterFault _ _
  · exact ((exec_effect hu).keeps_inv (ready_advance hs hf hw)).endCycle i

/-- Settles O48: reset's memory lists nothing, its registers and slots are zero, and no command is out. -/
theorem resetMeetsTheInvariant : Obligations.ResetMeetsTheInvariant :=
  ⟨Memory.nil_wf, fun _ => ⟨Nat.zero_le _, ⟨by decide, by decide⟩, trivial, rfl⟩⟩

end Sys2Proof.Machine
end

section
/-! SUPPORT. Two machines that differ in the sound timer and the commands alone: each operation takes them to two such machines
again (spec/10_state.md R27, spec/44_keypad_timers.md R168). -/

namespace Sys2Proof.Machine

/-- The state with another sound timer and other commands. -/
def withSound (b : Byte) (cs : List Command) (s : State) : State := { s with st := b, out := cs }

/-- `t'` is `t` but for the sound timer and the commands. -/
def SameButSound (t t' : State) : Prop := ∃ b cs, t' = withSound b cs t

/-- Two outcomes are of one kind and, where they are next states, the same but for the sound timer and the commands. -/
inductive SameOutcome : Host.Outcome State Fault Refusal → Host.Outcome State Fault Refusal → Prop where
  | next {t t' : State} (h : SameButSound t t') : SameOutcome (.next t) (.next t')
  | fault (f : Fault) : SameOutcome (.fault f) (.fault f)
  | refused (r : Refusal) : SameOutcome (.refused r) (.refused r)

theorem SameButSound.keptBut {t t' : State} (h : SameButSound t t') : KeptBut [.st, .out] t t' := by
  obtain ⟨b, cs, rfl⟩ := h
  intro c hc
  cases c <;> simp_all [Kept, withSound, State.reg]

/-! ## The operations of a state -/

theorem SameButSound.nextDraw {t t' : State} (h : SameButSound t t') : SameButSound t.nextDraw t'.nextDraw := by
  obtain ⟨b, cs, rfl⟩ := h
  exact ⟨b, cs, rfl⟩

theorem SameButSound.skipIf {t t' : State} (h : SameButSound t t') (q : Bool) :
    SameButSound (skipIf q t) (skipIf q t') := by
  obtain ⟨b, cs, rfl⟩ := h
  cases q <;> exact ⟨b, cs, rfl⟩

theorem SameButSound.notifyRedraw {t t' : State} (h : SameButSound t t') (i : Instr) :
    SameButSound (notifyRedraw i t) (notifyRedraw i t') := by
  obtain ⟨b, cs, rfl⟩ := h
  rw [notifyRedraw_eq, notifyRedraw_eq]
  exact ⟨b, _, rfl⟩

/-- The timer check decides on `DT`, the draw and the parameters, and `DT` goes down without regard to `ST` (R192). -/
theorem SameButSound.timerCheck {t t' : State} (h : SameButSound t t') :
    SameButSound (timerCheck t) (timerCheck t') := by
  obtain ⟨b, cs, rfl⟩ := h
  have hcfg : (withSound b cs t).cfg = t.cfg := rfl
  have hdraw : (withSound b cs t).draw = t.draw := rfl
  unfold Machine.timerCheck
  rw [hcfg, hdraw]
  split
  · rw [timerCatchUp_eq, timerCatchUp_eq]
    exact ⟨_, _, rfl⟩
  · split
    · rw [timerDecrement_eq, timerDecrement_eq]
      exact ⟨_, _, rfl⟩
    · exact ⟨b, cs, rfl⟩

/-- The end of the cycle looks at the answer to the wait and at the status (R98, R100). -/
theorem SameButSound.endCycle {t t' : State} (h : SameButSound t t') (i : Instr) :
    SameButSound (endCycle i t) (endCycle i t') := by
  have hheld : held i t' = held i t := by obtain ⟨b, cs, rfl⟩ := h; rfl
  have hstatus : t'.status = t.status := by obtain ⟨b, cs, rfl⟩ := h; rfl
  unfold Machine.endCycle
  rw [hheld, hstatus]
  split
  · exact h.nextDraw
  · split
    · exact (h.notifyRedraw i).timerCheck.nextDraw
    · exact h
    · exact h

/-! ## The operations that may fault -/

theorem SameOutcome.of_next {t : State} {o : Host.Outcome State Fault Refusal} (h : SameOutcome (.next t) o) :
    ∃ t', o = .next t' ∧ SameButSound t t' := by
  cases h with
  | next h => exact ⟨_, rfl, h⟩

theorem SameOutcome.ite {c : Prop} [Decidable c] {a a' d d' : Host.Outcome State Fault Refusal}
    (ha : SameOutcome a a') (hd : SameOutcome d d') : SameOutcome (if c then a else d) (if c then a' else d') := by
  split
  · exact ha
  · exact hd

section
variable (b : Byte) (cs : List Command) (s : State)

/-- Two machines that take one fault are the same but for the commands (R181). -/
theorem sameOutcome_raise (f : Fault) : SameOutcome (raise f s) (raise f (withSound b cs s)) :=
  .next ⟨Config.faultSt s.drawn, cs, rfl⟩

theorem sameOutcome_call (nnn : Addr12) : SameOutcome (execCall nnn s) (execCall nnn (withSound b cs s)) := by
  unfold execCall
  rw [push_eq, push_eq]
  by_cases h : pushSlot s < 16
  · rw [dif_pos h, dif_pos (show pushSlot (withSound b cs s) < 16 from h)]
    exact .next ⟨b, cs, rfl⟩
  · rw [dif_neg h, dif_neg (show ¬ pushSlot (withSound b cs s) < 16 from h)]
    exact sameOutcome_raise b cs s _

theorem sameOutcome_ret : SameOutcome (execRet s) (execRet (withSound b cs s)) :=
  .ite (sameOutcome_raise b cs s _) (.next ⟨b, cs, rfl⟩)

theorem sameOutcome_orOutOfBounds {α : Type} (r : Except Nat α) {k k' : α → State}
    (hk : ∀ a, SameButSound (k a) (k' a)) :
    SameOutcome (orOutOfBounds r s k) (orOutOfBounds r (withSound b cs s) k') := by
  cases r with
  | ok a => exact .next (hk a)
  | error a => exact sameOutcome_raise b cs s _

/-- The answer to a key query is the environment's (R163). -/
theorem sameOutcome_keyDown (v : Byte) (c : Bool → Bool) :
    SameOutcome (keyDown v s fun q u => skipIf (c q) u) (keyDown v (withSound b cs s) fun q u => skipIf (c q) u) := by
  have hcfg : (withSound b cs s).cfg = s.cfg := rfl
  have hans : (withSound b cs s).keyAnswer = s.keyAnswer := rfl
  have hemit (m : Command) : SameButSound (s.emit m) ((withSound b cs s).emit m) := ⟨b, cs ++ [m], rfl⟩
  have hlose (m : Command) : SameButSound (s.emit m).loseCollaborator ((withSound b cs s).emit m).loseCollaborator :=
    ⟨b, cs ++ [m], rfl⟩
  unfold keyDown
  rw [hcfg, hans]
  refine .ite ?_ (.next ?_)
  · cases s.cfg.keyOor with
    | fault => exact sameOutcome_raise b cs s _
    | notPressed => exact .next (SameButSound.skipIf ⟨b, cs, rfl⟩ _)
  · cases s.keyAnswer with
    | down => exact (hemit _).skipIf _
    | up => exact (hemit _).skipIf _
    | unavailable => exact (hlose _).skipIf _

theorem sameOutcome_ldVxK (x : Reg) : SameOutcome (execLdVxK x s) (execLdVxK x (withSound b cs s)) := by
  have hans : (withSound b cs s).releaseAnswer = s.releaseAnswer := rfl
  unfold execLdVxK
  rw [hans]
  cases s.releaseAnswer with
  | pending => exact .next ⟨b, cs, rfl⟩
  | released k => exact .next ⟨b, cs ++ [.waitForKeyRelease], rfl⟩
  | unavailable => exact .next ⟨Config.faultSt s.drawn, cs ++ [.waitForKeyRelease], rfl⟩

theorem sameOutcome_ldStVx (x : Reg) : SameOutcome (execLdStVx x s) (execLdStVx x (withSound b cs s)) := by
  unfold execLdStVx
  rw [writeSt_eq, writeSt_eq]
  exact .next ⟨_, _, rfl⟩

theorem sameButSound_writeCollision (n : Nibble) (q : Bool) (fb : Framebuffer) :
    SameButSound (writeCollision n q (s.setFb fb)) (writeCollision n q ((withSound b cs s).setFb fb)) := by
  have hcfg : ((withSound b cs s).setFb fb).cfg = (s.setFb fb).cfg := rfl
  unfold writeCollision
  rw [hcfg]
  split
  · exact ⟨b, cs, rfl⟩
  · split <;> exact ⟨b, cs, rfl⟩

/-! ## The instructions and the step -/

/-- No instruction reads the sound timer or the commands (R27, R168). -/
theorem sameOutcome_exec (i : Instr) : SameOutcome (exec i s) (exec i (withSound b cs s)) := by
  cases i with
  | sys nnn | call nnn => exact sameOutcome_call b cs s nnn
  | ret => exact sameOutcome_ret b cs s
  | cls => exact .next ⟨b, cs ++ [.clear], rfl⟩
  | jp a | jpV0 a | ldI a | addI a | ldF a => exact .next ⟨b, cs, rfl⟩
  | seImm x a | sneImm x a | seReg x a | sneReg x a => exact .next (SameButSound.skipIf ⟨b, cs, rfl⟩ _)
  | ldImm x a | addImm x a | ldReg x a | orReg x a | andReg x a | xorReg x a | rnd x a => exact .next ⟨b, cs, rfl⟩
  | addReg x y | sub x y | subn x y | shr x y | shl x y => exact .next ⟨b, cs, rfl⟩
  | ldVxDt x | ldDtVx x => exact .next ⟨b, cs, rfl⟩
  | drw x y n => exact sameOutcome_orOutOfBounds b cs s _ fun _ => sameButSound_writeCollision b cs s _ _ _
  | skp x => exact sameOutcome_keyDown b cs s _ fun q => q
  | sknp x => exact sameOutcome_keyDown b cs s _ fun q => !q
  | ldVxK x => exact sameOutcome_ldVxK b cs s x
  | ldStVx x => exact sameOutcome_ldStVx b cs s x
  | ldB x | storeRegs x | loadRegs x => exact sameOutcome_orOutOfBounds b cs s _ fun _ => ⟨b, cs, rfl⟩

theorem sameOutcome_runInstr (i : Instr) : SameOutcome (runInstr i s) (runInstr i (withSound b cs s)) := by
  have h := sameOutcome_exec b cs (advance s) i
  have hadv : advance (withSound b cs s) = withSound b cs (advance s) := rfl
  unfold runInstr
  rw [hadv]
  generalize exec i (advance s) = o, exec i (withSound b cs (advance s)) = o' at h ⊢
  cases h with
  | next h => exact .next (h.endCycle i)
  | fault f => exact .fault f
  | refused r => exact .refused r

/-- The cycle fetches and decodes from `pc`, memory and the parameters (R90). -/
theorem sameOutcome_cycle : SameOutcome (cycle s) (cycle (withSound b cs s)) := by
  have hfetch : fetch (withSound b cs s) = fetch s := rfl
  have hcfg : (withSound b cs s).cfg = s.cfg := rfl
  unfold cycle
  rw [hfetch, hcfg]
  split
  · exact sameOutcome_raise b cs s _
  · refine .ite (.next ⟨b, cs, rfl⟩) ?_
    split
    · exact sameOutcome_raise b cs s _
    · exact sameOutcome_runInstr b cs s _

theorem sameOutcome_step : SameOutcome (step s) (step (withSound b cs s)) := by
  have hstatus : (withSound b cs s).status = s.status := rfl
  unfold step
  rw [hstatus]
  split
  · exact sameOutcome_cycle b cs s
  · exact .next ⟨b, cs, rfl⟩
  · exact .fault _

end

/-- Settles O53: the two machines' steps have the same outcome but for the sound timer and the commands. -/
theorem soundTimerIsNotObservable : Obligations.SoundTimerIsNotObservable := by
  intro s t b cs h
  obtain ⟨t', hstep, hsame⟩ := (h ▸ sameOutcome_step b cs s).of_next
  exact ⟨t', hstep, hsame.keptBut⟩

end Sys2Proof.Machine
end

section
/-! SUPPORT. What no step undoes: the parameters stand, commands are only appended, a collaborator that is gone stays gone
(spec/10_state.md R34, R35; spec/60_exceptions.md R209). -/

namespace Sys2Proof.Machine

/-- `t` has the parameters of `s`, the commands of `s` and perhaps more, and no collaborator that `s` had lost. -/
structure Extends (s t : State) : Prop where
  cfg : t.cfg = s.cfg
  out : ∃ cs, t.out = s.out ++ cs
  gone : s.collabGone = true → t.collabGone = true

namespace Extends

/-- An update that leaves all three alone. -/
theorem of_eq {s t : State} (hcfg : t.cfg = s.cfg) (hout : t.out = s.out) (hgone : t.collabGone = s.collabGone) :
    Extends s t :=
  ⟨hcfg, ⟨[], by rw [hout, List.append_nil]⟩, fun h => hgone.trans h⟩

theorem refl (s : State) : Extends s s := of_eq rfl rfl rfl

theorem trans {s t u : State} (h : Extends s t) (h' : Extends t u) : Extends s u := by
  obtain ⟨cs, hcs⟩ := h.out
  obtain ⟨ds, hds⟩ := h'.out
  exact ⟨h'.cfg.trans h.cfg, ⟨cs ++ ds, by rw [hds, hcs, List.append_assoc]⟩, fun hg => h'.gone (h.gone hg)⟩

theorem emit (s : State) (c : Command) : Extends s (s.emit c) := ⟨rfl, ⟨[c], rfl⟩, id⟩

theorem loseCollaborator (s : State) : Extends s s.loseCollaborator :=
  ⟨rfl, ⟨[], (List.append_nil _).symm⟩, fun _ => rfl⟩

theorem enterFault (f : Fault) (s : State) : Extends s (enterFault f s) := of_eq rfl rfl rfl

theorem skipIf (q : Bool) (s : State) : Extends s (skipIf q s) := by
  cases q <;> exact of_eq rfl rfl rfl

theorem notifyRedraw (i : Instr) (s : State) : Extends s (notifyRedraw i s) := by
  rw [notifyRedraw_eq]
  exact ⟨rfl, ⟨_, rfl⟩, id⟩

theorem timerCheck (s : State) : Extends s (timerCheck s) := by
  obtain ⟨d, b, e⟩ := timerCheck_cases s
  rw [e]
  exact ⟨rfl, ⟨_, rfl⟩, id⟩

theorem nextDraw (s : State) : Extends s s.nextDraw := of_eq rfl rfl rfl

theorem endCycle (i : Instr) (s : State) : Extends s (endCycle i s) := by
  obtain ⟨-, e⟩ | ⟨-, -, e⟩ | ⟨-, -, e⟩ := endCycle_cases i s <;> rw [e]
  · exact nextDraw s
  · exact refl s
  · exact ((notifyRedraw i s).trans (timerCheck _)).trans (nextDraw _)

end Extends

theorem Effect.extends_record {s t : State} (h : Effect s t) : Extends s t := by
  cases h with
  | fault f => exact .enterFault f s
  | data v i dt m fb hm => exact .of_eq rfl rfl rfl
  | clear =>
    have hfb : Extends s (s.setFb blankFb) := .of_eq rfl rfl rfl
    exact hfb.trans (.emit _ _)
  | jump w hw => exact .of_eq rfl rfl rfl
  | skip q => exact .skipIf q s
  | call nnn h => exact .of_eq rfl rfl rfl
  | ret h => exact .of_eq rfl rfl rfl
  | query q k => exact (Extends.emit s _).trans (.skipIf q _)
  | queryGone q k => exact ((Extends.emit s _).trans (.loseCollaborator _)).trans (.skipIf q _)
  | hold => exact .of_eq rfl rfl rfl
  | released x b => exact (Extends.emit s _).trans (.of_eq rfl rfl rfl)
  | waitGone => exact ((Extends.emit s _).trans (.loseCollaborator _)).trans (.enterFault _ _)
  | sound b =>
    rw [writeSt_eq]
    exact ⟨rfl, ⟨_, rfl⟩, id⟩

/-- Settles O52: fetch, halt and the faults touch none of the three, an instruction's effect and the end of its cycle extend
them. -/
theorem stepsOnlyAddToTheRecord : Obligations.StepsOnlyAddToTheRecord := by
  intro s t h
  have hext : Extends s t := by
    obtain ⟨-, rfl⟩ | ⟨-, ⟨a, -, rfl⟩ | ⟨w, -, ⟨-, rfl⟩ | ⟨-, ⟨e, -, rfl⟩ | ⟨i, u, -, hu, rfl⟩⟩⟩⟩ := step_cases h
    · exact .refl _
    · exact .enterFault _ s
    · exact .of_eq rfl rfl rfl
    · exact .enterFault _ s
    · have hadv : Extends s (advance s) := .of_eq rfl rfl rfl
      exact (hadv.trans (exec_effect hu).extends_record).trans (.endCycle i u)
  exact ⟨hext.cfg, hext.out, hext.gone⟩

end Sys2Proof.Machine
end

section
/-! SUPPORT. The frame of every instruction against the table of spec/10_state.md R39, the flags, and the return from no slot. -/

namespace Sys2Proof.Machine

/-! ## Frames of the shared operations -/

theorem Kept.trans {s t u : State} {c : Component} (h : Kept s t c) (h' : Kept t u c) : Kept s u c := by
  cases c <;> exact Eq.trans h' h

theorem keptBut_emit (s : State) (m : Command) : KeptBut [.out] s (s.emit m) := by
  intro c hc
  cases c <;> simp_all [Kept]

theorem keptBut_loseCollaborator (s : State) : KeptBut [.collabGone] s s.loseCollaborator := by
  intro c hc
  cases c <;> simp_all [Kept]

theorem keptBut_writeSt (b : Byte) (s : State) : KeptBut [.st, .out] s (writeSt b s) := by
  rw [writeSt_eq]
  intro c hc
  cases c <;> simp_all [Kept, State.reg]

theorem keptBut_pop (s : State) (w : Word) : KeptBut [.pc, .sp] s ((s.setStack (s.sp - 1) s.stack).setPc w) := by
  intro c hc
  cases c <;> simp_all [Kept]

/-- A call changes `pc`, `SP` and the one slot it pushes to (R110). -/
theorem kept_call (s : State) (w w' : Word) (h : pushSlot s < 16) {c : Component} (hpc : c ≠ .pc) (hsp : c ≠ .sp)
    (hslot : ∀ k, c = .slot k → k.val ≠ pushSlot s) :
    Kept s ((s.setStack (s.sp + 1) (s.stack.set (pushSlot s) w h)).setPc w') c := by
  cases c with
  | pc => exact absurd rfl hpc
  | sp => exact absurd rfl hsp
  | slot k => exact Vector.getElem_set_ne h k.isLt (hslot k rfl).symm
  | reg _ | i | dt | st | byte _ | row _ | status | out | cfg | inputs | drawn | collabGone => rfl

/-- Replacing memory changes bytes alone. -/
theorem kept_setMem (s : State) (m : Memory) {c : Component} (h : ∀ a, c = .byte a → m.read a = s.mem.read a) :
    Kept s (s.setMem m) c := by
  cases c with
  | byte a => exact h a rfl
  | reg _ | i | pc | dt | st | sp | slot _ | row _ | status | out | cfg | inputs | drawn | collabGone => rfl

/-- Replacing the framebuffer changes rows alone. -/
theorem kept_setFb (s : State) (fb : Framebuffer) {c : Component} (h : ∀ r : Fin 32, c = .row r → fb[r] = s.fb[r]) :
    Kept s (s.setFb fb) c := by
  cases c with
  | row r => exact h r rfl
  | reg _ | i | pc | dt | st | sp | slot _ | byte _ | status | out | cfg | inputs | drawn | collabGone => rfl

/-- Replacing the register file changes registers alone. -/
theorem kept_setV (s : State) (v : Vector Byte 16) {c : Component}
    (h : ∀ r : Reg, c = .reg r → (s.setV v).reg r = s.reg r) : Kept s (s.setV v) c := by
  cases c with
  | reg r => exact h r rfl
  | i | pc | dt | st | sp | slot _ | byte _ | row _ | status | out | cfg | inputs | drawn | collabGone => rfl

/-! ## Completion: what an operation did when it did not fault -/

theorem orOutOfBounds_completed {α : Type} {r : Except Nat α} {s t : State} {k : α → State}
    (h : orOutOfBounds r s k = .next t) (hf : t.isFaulted = false) : ∃ a, r = .ok a ∧ t = k a := by
  obtain ⟨a, ha, rfl⟩ | ⟨a, -, rfl⟩ := orOutOfBounds_cases h
  · exact ⟨a, ha, rfl⟩
  · cases hf

/-- The bytes a completed block read gives are as many as were asked for (R56). -/
theorem readBlock_length {m : Memory} {a n : Nat} {bs : List Byte} (h : m.readBlock a n = .ok bs) : bs.length = n := by
  rw [Memory.readBlock_eq] at h
  split at h <;> cases h
  rw [List.length_map, List.length_range]

theorem firstRegs_length (s : State) (x : Reg) : (firstRegs s x).length = x.toNat + 1 := by
  have := x.isLt
  rw [firstRegs, List.length_take, Vector.length_toList]
  omega

/-! ## The instructions -/

theorem execCall_frame {s t : State} {nnn : Addr12} {c : Component} (h : execCall nnn s = .next t)
    (hf : t.isFaulted = false) (hc : mayWrite (.call nnn) s c = false) : Kept s t c := by
  rw [execCall, push_eq] at h
  split at h <;> obtain rfl := Host.Outcome.next.inj h
  · refine kept_call s _ _ _ ?_ ?_ ?_
    · rintro rfl
      simp [mayWrite] at hc
    · rintro rfl
      simp [mayWrite] at hc
    · rintro k rfl
      simpa [mayWrite] using hc
  · cases hf

theorem execRet_frame {s t : State} (h : execRet s = .next t) (hf : t.isFaulted = false) : KeptBut [.pc, .sp] s t := by
  rw [execRet, pop_eq] at h
  split at h <;> obtain rfl := Host.Outcome.next.inj h
  · cases hf
  · exact keptBut_pop s _

/-- A key query and the skip after it change `pc`, the commands and the note that the collaborator is gone (R163). -/
theorem keyDown_frame {s t : State} {v : Byte} {q : Bool → Bool} (h : keyDown v s (fun a u => skipIf (q a) u) = .next t)
    (hf : t.isFaulted = false) : KeptBut [.pc, .out, .collabGone] s t := by
  intro c hc
  have hskip (a : Bool) (u : State) : Kept u (skipIf a u) c := keptBut_skipIf a u c (by simp_all)
  have hemit (m : Command) : Kept s (s.emit m) c := keptBut_emit s m c (by simp_all)
  have hlose (u : State) : Kept u u.loseCollaborator c := keptBut_loseCollaborator u c (by simp_all)
  obtain ⟨-, -, rfl⟩ | ⟨-, -, rfl⟩ | ⟨-, -, rfl⟩ | ⟨-, -, rfl⟩ := keyDown_cases h
  · cases hf
  · exact hskip _ s
  · exact ((hemit _).trans (hlose _)).trans (hskip _ _)
  · exact (hemit _).trans (hskip _ _)

theorem execLdVxK_frame {s t : State} {x : Reg} (h : execLdVxK x s = .next t) (hf : t.isFaulted = false) :
    KeptBut [.reg x, .pc, .out] s t := by
  obtain rfl := Host.Outcome.next.inj h
  intro c hc
  split at hf
  · exact keptBut_setPc s _ c (by simp_all)
  · exact (keptBut_emit s _ c (by simp_all)).trans (keptBut_setReg _ x _ c (by simp_all))
  · cases hf

/-- A completed store changes the bytes it stores alone (R56). -/
theorem store_frame {s t : State} {bs : List Byte} {c : Component}
    (h : orOutOfBounds (s.mem.writeBlock (effectiveAddress s 0) bs) s (fun m => s.setMem m) = .next t)
    (hf : t.isFaulted = false)
    (hc : ∀ a, c = .byte a → a < effectiveAddress s 0 ∨ effectiveAddress s 0 + bs.length ≤ a) : Kept s t c := by
  obtain ⟨m, hm, rfl⟩ := orOutOfBounds_completed h hf
  exact kept_setMem s m fun a ha => Memory.writeBlock_other hm (hc a ha)

theorem execLoadRegs_frame {s t : State} {x : Reg} {c : Component} (h : execLoadRegs x s = .next t)
    (hf : t.isFaulted = false) (hc : mayWrite (.loadRegs x) s c = false) : Kept s t c := by
  obtain ⟨bs, hbs, rfl⟩ := orOutOfBounds_completed h hf
  have hlen := readBlock_length hbs
  refine kept_setV s _ ?_
  rintro r rfl
  have hr : x.toNat < r.toNat := by simpa [mayWrite] using hc
  have hget : (fillRegs s.v 0 bs)[r.toNat] = s.v[r.toNat] := by
    rw [fillRegs_getElem, if_neg (by omega)]
  exact hget

/-- A completed draw changes VF and the rows it draws alone (R172). -/
theorem execDrw_frame {s t : State} {x y : Reg} {n : Nibble} {c : Component} (h : execDrw x y n s = .next t)
    (hf : t.isFaulted = false) (hc : mayWrite (.drw x y n) s c = false) : Kept s t c := by
  obtain ⟨bs, hbs, rfl⟩ := orOutOfBounds_completed h hf
  have hlen := readBlock_length hbs
  refine Kept.trans (kept_setFb s _ ?_) (keptBut_writeCollision _ _ _ c ?_)
  · rintro r rfl
    refine blit_row_other _ _ _ _ _ _ _ r.isLt fun k hk => ?_
    have hrows : ∀ k < n.toNat, ¬ r.val = ((s.reg y).toNat + k) % 32 := by simpa [mayWrite] using hc
    exact Ne.symm (hrows k (hlen ▸ hk))
  · intro hreg
    rw [List.mem_singleton] at hreg
    subst hreg
    simp [mayWrite] at hc

theorem execCls_frame (s : State) : KeptButRows [.out] s ((s.setFb blankFb).emit .clear) := by
  intro c hc hrow
  exact (kept_setFb s _ fun r hr => absurd hr (hrow r)).trans (keptBut_emit _ _ c hc)

/-- The frame of every instruction: what the table does not let it write stands (R39). -/
theorem exec_frame {i : Instr} {s t : State} {c : Component} (h : exec i s = .next t) (hf : t.isFaulted = false)
    (hc : mayWrite i s c = false) : Kept s t c := by
  cases i with
  | sys nnn => exact execCall_frame (nnn := nnn) h hf hc
  | call nnn => exact execCall_frame h hf hc
  | ret => exact execRet_frame h hf c (by simp_all [mayWrite])
  | cls =>
    obtain rfl := Host.Outcome.next.inj h
    refine execCls_frame s c ?_ ?_
    · intro hout
      rw [List.mem_singleton] at hout
      subst hout
      simp [mayWrite] at hc
    · rintro r rfl
      simp [mayWrite] at hc
  | jp a | jpV0 a =>
    obtain rfl := Host.Outcome.next.inj h
    exact keptBut_setPc s _ c (by simp_all [mayWrite])
  | seImm x a | sneImm x a | seReg x a | sneReg x a =>
    obtain rfl := Host.Outcome.next.inj h
    exact keptBut_skipIf _ s c (by simp_all [mayWrite])
  | ldImm x a | addImm x a | rnd x a | ldReg x a | orReg x a | andReg x a | xorReg x a =>
    obtain rfl := Host.Outcome.next.inj h
    exact keptBut_setReg s x _ c (by simp_all [mayWrite])
  | ldVxDt x =>
    obtain rfl := Host.Outcome.next.inj h
    exact keptBut_setReg s x _ c (by simp_all [mayWrite])
  | addReg x y | sub x y | subn x y | shr x y | shl x y =>
    obtain rfl := Host.Outcome.next.inj h
    exact keptBut_writeFlagged s x _ _ c (by simp_all [mayWrite])
  | ldI a | addI a | ldF a =>
    obtain rfl := Host.Outcome.next.inj h
    exact keptBut_setI s _ c (by simp_all [mayWrite])
  | drw x y n => exact execDrw_frame h hf hc
  | skp x => exact keyDown_frame (q := fun a => a) h hf c (by simp_all [mayWrite])
  | sknp x => exact keyDown_frame (q := fun a => !a) h hf c (by simp_all [mayWrite])
  | ldVxK x => exact execLdVxK_frame h hf c (by simp_all [mayWrite])
  | ldDtVx x =>
    obtain rfl := Host.Outcome.next.inj h
    exact keptBut_setDt s _ c (by simp_all [mayWrite])
  | ldStVx x =>
    obtain rfl := Host.Outcome.next.inj h
    exact keptBut_writeSt _ s c (by simp_all [mayWrite])
  | ldB x =>
    refine store_frame h hf ?_
    rintro a rfl
    have hout : ¬ (effectiveAddress s 0 ≤ a ∧ a ≤ effectiveAddress s 2) := by
      simpa only [mayWrite, decide_eq_false_iff_not] using hc
    simp only [effectiveAddress, bcdDigits, List.length_cons, List.length_nil] at hout ⊢
    omega
  | storeRegs x =>
    refine store_frame h hf ?_
    rintro a rfl
    have hout : ¬ (effectiveAddress s 0 ≤ a ∧ a ≤ effectiveAddress s x.toNat) := by
      simpa only [mayWrite, decide_eq_false_iff_not] using hc
    rw [firstRegs_length]
    simp only [effectiveAddress] at hout ⊢
    omega
  | loadRegs x => exact execLoadRegs_frame h hf hc

/-- Settles O51: by the frame of each instruction. -/
theorem onlyTheListedWritersWrite : Obligations.OnlyTheListedWritersWrite :=
  fun _ _ _ _ h hf hc => exec_frame h hf hc

/-- Settles O9: a pop past the last slot takes the free value. -/
theorem returnFromNoSlotPopsAFreeValue : Obligations.ReturnFromNoSlotPopsAFreeValue := by
  intro s hslot
  have hslot : 16 ≤ popSlot s := hslot
  have hsp : s.sp.toNat ≠ 0 := by
    unfold popSlot at hslot
    split at hslot <;> omega
  refine ⟨(s.setStack (s.sp - 1) s.stack).setPc (topOfStack s), ?_, ?_, ?_, keptBut_pop s _⟩
  · exact (pop_eq s fun w u => u.setPc w).trans (if_neg hsp)
  · exact (topOfStack_eq s).trans (dif_neg (by omega))
  · change (s.sp - 1).toNat = _
    bv_omega

/-! ## The flags (R23) -/

theorem flagByte_zero_or_one (q : Bool) : flagByte q = 0 ∨ flagByte q = 1 := by
  cases q <;> simp [flagByte]

/-- VF is 0 or 1 after a flagged write to another register (R131). -/
theorem writeFlagged_flag_zero_or_one (s : State) {x : Reg} (hx : x ≠ regF) (q : Bool) (b : Byte) :
    (writeFlagged s x q b).reg regF = 0 ∨ (writeFlagged s x q b).reg regF = 1 := by
  rw [writeFlagged_flag s x q b hx]
  exact flagByte_zero_or_one q

theorem writeCollision_flag_zero_or_one (n : Nibble) (q : Bool) {s : State} (h : s.cfg.drwCollision = .orRows) :
    (writeCollision n q s).reg regF = 0 ∨ (writeCollision n q s).reg regF = 1 := by
  simp only [writeCollision, h, State.setReg_reg, if_true]
  exact flagByte_zero_or_one q

/-- Settles O17: each of the six writes VF by `flagByte`. -/
theorem flagsAreZeroOrOne : Obligations.FlagsAreZeroOrOne := by
  intro x y n s
  refine ⟨fun hx i hi => ?_, fun hor t h hf => ?_⟩
  · simp only [List.mem_cons, List.not_mem_nil, or_false] at hi
    obtain rfl | rfl | rfl | rfl | rfl := hi <;> exact ⟨_, rfl, writeFlagged_flag_zero_or_one s hx _ _⟩
  · obtain ⟨bs, -, rfl⟩ := orOutOfBounds_completed h hf
    exact writeCollision_flag_zero_or_one n _ hor

end Sys2Proof.Machine
end

section
/-! SUPPORT. The state reset builds (spec/10_state.md R36 to R38; spec/70_reset_and_hazards.md R220, R222). -/

namespace Sys2Proof.Machine

theorem defaultFont_length : defaultFont.length = 80 := rfl

/-- Above the font the reset image is zero (R37). -/
theorem unlisted_above_font {a : Nat} (h : 0x50 ≤ a) : unlisted a = 0 :=
  List.getD_eq_default _ _ (by rw [defaultFont_length]; exact h)

/-- Settles O45: reset lists no byte, so memory reads as the font with zeros above; every other component is written out. -/
theorem resetValues : Obligations.ResetValues := by
  refine ⟨rfl, rfl, rfl, rfl, rfl, rfl, rfl, rfl, ?_, ?_, ?_, fun _ _ => rfl, fun a ha => unlisted_above_font ha, rfl⟩
  · intro r
    exact Vector.getElem_replicate _
  · intro k
    exact Vector.getElem_replicate _
  · intro r c
    have hrow : State.reset.fb[r] = 0 := Vector.getElem_replicate _
    rw [lit, hrow]
    exact BitVec.getLsbD_zero

/-- The memory of a booted machine: the ROM where it lies, the font below, zero elsewhere (R220). -/
theorem bootMemory_read {font rom : List Byte} (hfont : font.length = 80) {a : Nat} (ha : a ≤ 0xFFF) :
    (Memory.load (Memory.load [] 0x000 font) 0x200 rom).read a =
      if a ≤ 0x4F then font.getD a 0
      else if 0x200 ≤ a ∧ a < 0x200 + rom.length then rom.getD (a - 0x200) 0 else 0 := by
  rw [Memory.load_read (Memory.load_wf Memory.nil_wf _ _), Memory.load_read Memory.nil_wf, hfont]
  by_cases hf : a ≤ 0x4F
  · rw [if_neg (by omega), if_pos (by simp only [lastAddr]; omega), if_pos hf, Nat.sub_zero]
  · rw [if_neg (show ¬ (0 ≤ a ∧ a < 0 + 80 ∧ a ≤ lastAddr) by omega), if_neg hf]
    by_cases hr : 0x200 ≤ a ∧ a < 0x200 + rom.length
    · rw [if_pos ⟨hr.1, hr.2, ha⟩, if_pos hr]
    · rw [if_neg (by omega), if_neg hr]
      exact unlisted_above_font (by omega)

/-- Settles O46: the two copies of reset, read by the law of `Memory.load`. -/
theorem bootBuildsTheMemoryImage : Obligations.BootBuildsTheMemoryImage := by
  intro cfg font rom
  refine ⟨fun hfont hrom => ⟨_, if_pos ⟨hfont, hrom⟩, ?_, rfl, fun a ha => bootMemory_read hfont ha, ?_⟩, fun h => ?_⟩
  · exact Memory.load_wf (Memory.load_wf Memory.nil_wf _ _) _ _
  · intro c hcfg hbyte
    cases c with
    | cfg => exact absurd rfl hcfg
    | byte a => exact absurd rfl (hbyte a)
    | reg _ | i | pc | dt | st | sp | slot _ | row _ | status | out | inputs | drawn | collabGone => rfl
  · exact if_neg (by omega)

end Sys2Proof.Machine
end

section
/-! SUPPORT. A block stored at `I` upward and what the next fetch reads of it (spec/20_memory.md R50, R65;
spec/43_index_memory.md R153, R156). -/

namespace Sys2Proof.Machine

/-- A store inside memory completes, replaces memory alone and leaves its bytes in order at `EA(0)` upward (R56, R155). -/
theorem store_completes {s : State} (hm : s.mem.wf) {bs : List Byte} (h : effectiveAddress s bs.length ≤ lastAddr + 1) :
    ∃ m : Memory,
      orOutOfBounds (s.mem.writeBlock (effectiveAddress s 0) bs) s (fun m => s.setMem m) = .next (s.setMem m) ∧
      ∀ k < bs.length, m.read (effectiveAddress s k) = bs.getD k 0 := by
  simp only [effectiveAddress] at h ⊢
  obtain ⟨m, hwrite, hread⟩ := Memory.writeBlock_ok hm (s.i.toNat + 0) bs (.inr (by omega))
  refine ⟨m, by rw [hwrite]; rfl, fun k hk => ?_⟩
  rw [hread, if_pos (by omega), show s.i.toNat + k - (s.i.toNat + 0) = k by omega]

/-- A fetch with both addresses inside memory reads the two bytes at `pc`, the high one first (R50, R91). -/
theorem fetch_setPc (s : State) {p : Word} (h : p.toNat + 1 ≤ lastAddr) :
    fetch (s.setPc p) = .ok (wordOfBytes (s.mem.read p.toNat) (s.mem.read (p.toNat + 1))) := by
  rw [fetch, if_neg (by rw [State.setPc_pc]; omega), if_neg (by rw [State.setPc_pc]; omega)]
  rfl

/-- Two neighbouring bytes of a stored block are fetched as one word, whatever stood there before (R65). -/
theorem store_then_fetch {s : State} (hm : s.mem.wf) {bs : List Byte} (h : effectiveAddress s bs.length ≤ lastAddr + 1) :
    ∃ t, orOutOfBounds (s.mem.writeBlock (effectiveAddress s 0) bs) s (fun m => s.setMem m) = .next t ∧
      ∀ (k : Nat) (p : Word), k + 1 < bs.length → p.toNat = effectiveAddress s k →
        fetch (t.setPc p) = .ok (wordOfBytes (bs.getD k 0) (bs.getD (k + 1) 0)) := by
  obtain ⟨m, hstore, hread⟩ := store_completes hm h
  refine ⟨s.setMem m, hstore, fun k p hk hp => ?_⟩
  have hnext : p.toNat + 1 = effectiveAddress s (k + 1) := by rw [hp, effectiveAddress, effectiveAddress, Nat.add_assoc]
  have hin : p.toNat + 1 ≤ lastAddr := by
    rw [hnext]
    simp only [effectiveAddress] at h ⊢
    omega
  rw [fetch_setPc _ hin, hnext, hp, State.setMem_mem, hread k (by omega), hread (k + 1) hk]

/-- The block `LD [I],Vx` stores holds `Vk` at place `k` (R155). -/
theorem firstRegs_getD (s : State) {x k : Reg} (h : k.toNat ≤ x.toNat) : (firstRegs s x).getD k.toNat 0 = s.reg k := by
  have hk : k.toNat < (firstRegs s x).length := by
    rw [firstRegs_length]
    omega
  rw [List.getD_eq_getElem _ _ hk]
  simp only [firstRegs, List.getElem_take, Vector.getElem_toList]
  rfl

/-- Settles O24: both stores write a block at `I`, whose neighbouring bytes the fetch reads. -/
theorem storedBytesAreFetched : Obligations.StoredBytesAreFetched := by
  intro x p s hm
  refine ⟨fun k hend hk hp => ?_, fun hend => ?_⟩
  · have hfit : effectiveAddress s (firstRegs s x).length ≤ lastAddr + 1 := by
      rw [firstRegs_length]
      exact Nat.succ_le_succ hend
    have hsucc : (k + 1).toNat = k.toNat + 1 := by bv_omega
    obtain ⟨t, hstore, hfetch⟩ := store_then_fetch hm hfit
    refine ⟨t, hstore, ?_⟩
    rw [hfetch k.toNat p (by rw [firstRegs_length]; omega) hp, firstRegs_getD s hk.le, ← hsucc,
      firstRegs_getD s (hsucc ▸ hk)]
  · have hv := (s.reg x).isLt
    have hdigit {d : Nat} (hd : d ≤ (s.reg x).toNat) : (BitVec.ofNat 8 d).toNat = d := Nat.mod_eq_of_lt (by omega)
    obtain ⟨t, hstore, hfetch⟩ := store_then_fetch (bs := bcdDigits (s.reg x)) hm (Nat.succ_le_succ hend)
    exact ⟨t, _, _, _, hstore, hdigit (by omega), hdigit (by omega), hdigit (by omega),
      hfetch 0 p (by decide : 0 + 1 < 3), hfetch 1 p (by decide : 1 + 1 < 3)⟩

end Sys2Proof.Machine
end

section
/-! SUPPORT. The decoder against the encoder and the opcode map (spec/30_encoding.md R74 to R78): what decoding a word answers,
said once, and the rows of the map by mask and match. -/

namespace Sys2Proof

/-! ## Decoding what was encoded (R74, R76) -/

theorem wordNNN_inj {op : BitVec 4} {a b : Addr12} : wordNNN op a = wordNNN op b ↔ a = b :=
  ⟨fun h => by simpa using congrArg fieldNNN h, fun h => h ▸ rfl⟩

/-- `SYS` has a word of its own where that word is not the one of `CLS` or `RET` (R113). -/
theorem wellFormed_sys_iff {nnn : Addr12} :
    WellFormed (.sys nnn) = true ↔ wordNNN 0x0 nnn ≠ 0x00E0 ∧ wordNNN 0x0 nnn ≠ 0x00EE := by
  have hcls : wordNNN 0x0 nnn = 0x00E0 ↔ nnn = 0x0E0 := wordNNN_inj (b := 0x0E0)
  have hret : wordNNN 0x0 nnn = 0x00EE ↔ nnn = 0x0EE := wordNNN_inj (b := 0x0EE)
  rw [Ne, Ne, hcls, hret]
  simp [WellFormed]

/-- Family 0: the words of `CLS` and `RET` come before `SYS` (R74). -/
theorem decodeWord_of_op_zero {strict : Bool} {w : Word} (hop : fieldOp w = 0x0) :
    decodeWord strict w =
      if w = 0x00E0 then .ok .cls else if w = 0x00EE then .ok .ret else .ok (.sys (fieldNNN w)) := by
  rw [decodeWord, hop]
  rfl

/-- The word of a well-formed instruction decodes to it, family by family. -/
theorem decodeWord_encode (strict : Bool) {i : Instr} (h : WellFormed i = true) : decodeWord strict (encode i) = .ok i := by
  cases i with
  | sys nnn =>
    obtain ⟨hcls, hret⟩ := wellFormed_sys_iff.1 h
    rw [encode, decodeWord_of_op_zero (fieldOp_wordNNN _ _), if_neg hcls, if_neg hret, fieldNNN_wordNNN]
  | cls | ret => rfl
  | jp | call | ldI | jpV0 => simp [encode, decodeWord]
  | seImm | sneImm | ldImm | addImm | rnd | drw => simp [encode, decodeWord]
  | seReg | sneReg => simp [encode, decodeWord, decodeSkipReg]
  | ldReg | orReg | andReg | xorReg | addReg | sub | shr | subn | shl => simp [encode, decodeWord, decode8]
  | skp | sknp => simp [encode, decodeWord, decodeE]
  | ldVxDt | ldVxK | ldDtVx | ldStVx | addI | ldF | ldB | storeRegs | loadRegs => simp [encode, decodeWord, decodeF]

/-- A stream that begins with the bytes of `i` is decoded as the word of `i`, the rest left over (R50, R70). -/
theorem decodeBytes_encodeBytes {strict : Bool} {i j : Instr} (h : decodeWord strict (encode i) = .ok j) (rest : List Byte) :
    decodeBytes strict (encodeBytes i ++ rest) = .ok (j, rest) := by
  simp [encodeBytes, decodeBytes, h]

/-- Settles O1: the word of every family decodes to its instruction, and a stream begins with that word. -/
theorem decodeOfEncodeIsTheInstruction : Obligations.DecodeOfEncodeIsTheInstruction := fun strict _ h =>
  ⟨decodeWord_encode strict h, decodeBytes_encodeBytes (decodeWord_encode strict h)⟩

/-! ## What decoding a word answers (R74, R76, R77) -/

/-- A faithful answer for `w`: a well-formed instruction whose word is `w`, or the error that names `w`, the latter exactly
for the illegal words. -/
def Faithful (w : Word) : Except DecodeError Instr → Prop
  | .ok i => (encode i = w ∧ WellFormed i = true) ∧ isIllegal w = false
  | .error e => e = .illegalWord w ∧ isIllegal w = true

section families
variable {w : Word} {op : BitVec 4} (hop : fieldOp w = op)
include hop

theorem wordNNN_of_op : wordNNN op (fieldNNN w) = w := hop ▸ wordNNN_fields w

theorem wordXKK_of_op : wordXKK op (fieldX w) (fieldKK w) = w := hop ▸ wordXKK_fields w

theorem wordXYN_of_op : wordXYN op (fieldX w) (fieldY w) (fieldN w) = w := hop ▸ wordXYN_fields w

/-- The other families have no illegal word (R77). -/
theorem isIllegal_of_op (h : op ∉ [0x5, 0x8, 0x9, 0xE, 0xF]) : isIllegal w = false := by
  subst hop
  unfold isIllegal
  split <;> simp_all

/-- A family with one row answers that row's instruction. -/
theorem faithful_ok {i : Instr} (henc : encode i = w) (hwf : WellFormed i = true) (h : op ∉ [0x5, 0x8, 0x9, 0xE, 0xF]) :
    Faithful w (.ok i) :=
  ⟨⟨henc, hwf⟩, isIllegal_of_op hop h⟩

end families

/-- Families 5 and 9 with the low nibble checked (R78). -/
theorem faithful_skipReg {w : Word} {i : Instr} (hill : isIllegal w = (fieldN w != 0)) (henc : fieldN w = 0 → encode i = w)
    (hwf : WellFormed i = true) : Faithful w (decodeSkipReg true w i) := by
  unfold decodeSkipReg
  split
  · next hn => exact ⟨rfl, hill.trans (by simpa using hn)⟩
  · next hn =>
    have hn : fieldN w = 0 := by simpa using hn
    exact ⟨⟨henc hn, hwf⟩, by simp [hill, hn]⟩

theorem faithful_decode8 {w : Word} (hop : fieldOp w = 0x8) : Faithful w (decode8 w) := by
  have hw := wordXYN_of_op hop
  unfold decode8
  split
  case h_10 => exact ⟨rfl, by simp_all [isIllegal]⟩
  all_goals next hn =>
    rw [hn] at hw
    exact ⟨⟨hw, rfl⟩, by simp [isIllegal, hop, hn]⟩

theorem faithful_decodeE {w : Word} (hop : fieldOp w = 0xE) : Faithful w (decodeE w) := by
  have hw := wordXKK_of_op hop
  unfold decodeE
  split
  case h_3 => exact ⟨rfl, by simp_all [isIllegal]⟩
  all_goals next hkk =>
    rw [hkk] at hw
    exact ⟨⟨hw, rfl⟩, by simp [isIllegal, hop, hkk]⟩

theorem faithful_decodeF {w : Word} (hop : fieldOp w = 0xF) : Faithful w (decodeF w) := by
  have hw := wordXKK_of_op hop
  unfold decodeF
  split
  case h_10 => exact ⟨rfl, by simp_all [isIllegal]⟩
  all_goals next hkk =>
    rw [hkk] at hw
    exact ⟨⟨hw, rfl⟩, by simp [isIllegal, hop, hkk]⟩

/-- The strict decoder answers every word faithfully. -/
theorem faithful_decodeWord (w : Word) : Faithful w (decodeWord true w) := by
  unfold decodeWord
  split
  case h_1 hop =>
    have hw := wordNNN_of_op hop
    split_ifs with hcls hret
    · exact hcls ▸ ⟨⟨rfl, rfl⟩, rfl⟩
    · exact hret ▸ ⟨⟨rfl, rfl⟩, rfl⟩
    · exact faithful_ok hop hw (wellFormed_sys_iff.2 (hw.symm ▸ ⟨hcls, hret⟩)) (by decide)
  case h_2 hop | h_3 hop | h_11 hop | h_12 hop => exact faithful_ok hop (wordNNN_of_op hop) rfl (by decide)
  case h_4 hop | h_5 hop | h_7 hop | h_8 hop | h_13 hop => exact faithful_ok hop (wordXKK_of_op hop) rfl (by decide)
  case h_14 hop => exact faithful_ok hop (wordXYN_of_op hop) rfl (by decide)
  case h_6 hop | h_10 hop =>
    have hw := wordXYN_of_op hop
    exact faithful_skipReg (by simp [isIllegal, hop]) (fun hn => by rwa [hn] at hw) rfl
  case h_9 hop => exact faithful_decode8 hop
  case h_15 hop => exact faithful_decodeE hop
  case h_16 =>
    have hop : fieldOp w = 0xF := by
      generalize fieldOp w = op at *
      decide +revert
    exact faithful_decodeF hop

/-- Settles O2: the strict decoder is faithful. -/
theorem encodeOfDecodeIsTheWord : Obligations.EncodeOfDecodeIsTheWord := by
  intro w i h
  have hw := faithful_decodeWord w
  rw [h] at hw
  exact hw.1

/-- The strict decoder and the encoder are inverse to each other on the well-formed instructions. -/
theorem decodeWord_eq_ok_iff {w : Word} {i : Instr} :
    decodeWord true w = .ok i ↔ encode i = w ∧ WellFormed i = true :=
  ⟨encodeOfDecodeIsTheWord w i, fun ⟨hw, hwf⟩ => hw ▸ decodeWord_encode true hwf⟩

/-! ## The illegal words (R77, R78) -/

/-- Every word is an instruction or an illegal word, and not both. -/
theorem decodeWord_cases (w : Word) :
    (∃ i, decodeWord true w = .ok i ∧ isIllegal w = false) ∨
    (decodeWord true w = .error (.illegalWord w) ∧ isIllegal w = true) := by
  have hw := faithful_decodeWord w
  cases hd : decodeWord true w with
  | ok i =>
    rw [hd] at hw
    exact .inl ⟨i, rfl, hw.2⟩
  | error e =>
    rw [hd] at hw
    exact .inr ⟨congrArg _ hw.1, hw.2⟩

theorem decodeWord_eq_error_iff {w : Word} : decodeWord true w = .error (.illegalWord w) ↔ isIllegal w = true := by
  obtain ⟨i, hd, hl⟩ | ⟨hd, hl⟩ := decodeWord_cases w <;> simp [hd, hl]

theorem exists_decodeWord_eq_ok_iff {w : Word} : (∃ i, decodeWord true w = .ok i) ↔ isIllegal w = false := by
  obtain ⟨i, hd, hl⟩ | ⟨hd, hl⟩ := decodeWord_cases w <;> simp [hd, hl]

/-- The low nibble matters to the register skips alone (R78). -/
theorem decodeWord_lenient {strict : Bool} {w : Word} (h : fieldOp w ∈ [0x8, 0xE, 0xF]) :
    decodeWord strict w = decodeWord true w := by
  rw [decodeWord, decodeWord]
  obtain h | h | h : fieldOp w = 0x8 ∨ fieldOp w = 0xE ∨ fieldOp w = 0xF := by simpa using h
  all_goals
    rw [h]
    rfl

/-- Settles O4: a faithful decoder rejects the illegal words alone; without the check the skips do not look at the nibble. -/
theorem illegalWordsAreTheTabulatedOnes : Obligations.IllegalWordsAreTheTabulatedOnes := by
  intro w
  refine ⟨decodeWord_eq_error_iff, exists_decodeWord_eq_ok_iff.2, fun h => ?_, fun h => ?_⟩
  · rw [decodeWord, h]
    rfl
  · rw [decodeWord, h]
    rfl

/-- Settles O5: each word is written out and decoded. -/
theorem spelledWordsDecode : Obligations.SpelledWordsDecode := by
  unfold Obligations.SpelledWordsDecode
  decide

/-! ## The rows of the opcode map (R76) -/

/-- The `mask` column of R76 as a function of the `match` column. -/
def maskOfMatch (m : Word) : Word :=
  match fieldOp m with
  | 0x0#4 => if m = 0x0000 then 0xF000 else 0xFFFF
  | 0x5#4 | 0x8#4 | 0x9#4 => 0xF00F
  | 0xE#4 | 0xF#4 => 0xF0FF
  | _ => 0xF000

theorem rowMask_eq (i : Instr) : rowMask i = maskOfMatch (rowMatch i) := by
  cases i <;> simp only [rowMask, rowMatch] <;> decide

/-- The word of an instruction lies in its row. -/
theorem encode_inTableRow : ∀ i : Instr, encode i &&& rowMask i = rowMatch i
  | .sys nnn => Laws.InTableRow.sys nnn
  | .cls => Laws.InTableRow.cls
  | .ret => Laws.InTableRow.ret
  | .jp nnn => Laws.InTableRow.jp nnn
  | .call nnn => Laws.InTableRow.call nnn
  | .seImm x kk => Laws.InTableRow.seImm x kk
  | .sneImm x kk => Laws.InTableRow.sneImm x kk
  | .seReg x y => Laws.InTableRow.seReg x y
  | .ldImm x kk => Laws.InTableRow.ldImm x kk
  | .addImm x kk => Laws.InTableRow.addImm x kk
  | .ldReg x y => Laws.InTableRow.ldReg x y
  | .orReg x y => Laws.InTableRow.orReg x y
  | .andReg x y => Laws.InTableRow.andReg x y
  | .xorReg x y => Laws.InTableRow.xorReg x y
  | .addReg x y => Laws.InTableRow.addReg x y
  | .sub x y => Laws.InTableRow.sub x y
  | .shr x y => Laws.InTableRow.shr x y
  | .subn x y => Laws.InTableRow.subn x y
  | .shl x y => Laws.InTableRow.shl x y
  | .sneReg x y => Laws.InTableRow.sneReg x y
  | .ldI nnn => Laws.InTableRow.ldI nnn
  | .jpV0 nnn => Laws.InTableRow.jpV0 nnn
  | .rnd x kk => Laws.InTableRow.rnd x kk
  | .drw x y n => Laws.InTableRow.drw x y n
  | .skp x => Laws.InTableRow.skp x
  | .sknp x => Laws.InTableRow.sknp x
  | .ldVxDt x => Laws.InTableRow.ldVxDt x
  | .ldVxK x => Laws.InTableRow.ldVxK x
  | .ldDtVx x => Laws.InTableRow.ldDtVx x
  | .ldStVx x => Laws.InTableRow.ldStVx x
  | .addI x => Laws.InTableRow.addI x
  | .ldF x => Laws.InTableRow.ldF x
  | .ldB x => Laws.InTableRow.ldB x
  | .storeRegs x => Laws.InTableRow.storeRegs x
  | .loadRegs x => Laws.InTableRow.loadRegs x

section masks
variable {w : Word} {op : BitVec 4}

/-- The mask of a family with one row keeps the family alone. -/
theorem fieldOp_of_masked (h : w &&& 0xF000 = wordNNN op 0) : fieldOp w = op := by
  rw [← wordNNN_fields w, Laws.wordNNN_and] at h
  simpa using congrArg fieldOp h

/-- The mask of formats with a sub-opcode in the low byte keeps the family and that byte. -/
theorem wordXKK_of_masked {kk : Byte} (h : w &&& 0xF0FF = wordXKK op 0 kk) : wordXKK op (fieldX w) kk = w := by
  rw [← wordXKK_fields w, Laws.wordXKK_and_low] at h
  have hop : fieldOp w = op := by simpa using congrArg fieldOp h
  have hkk : fieldKK w = kk := by simpa using congrArg fieldKK h
  exact hkk ▸ wordXKK_of_op hop

/-- The mask of formats with a sub-opcode in the low nibble keeps the family and that nibble. -/
theorem wordXYN_of_masked {n : Nibble} (h : w &&& 0xF00F = wordXYN op 0 0 n) :
    wordXYN op (fieldX w) (fieldY w) n = w := by
  rw [← wordXYN_fields w, Laws.wordXYN_and_low] at h
  have hop : fieldOp w = op := by simpa using congrArg fieldOp h
  have hn : fieldN w = n := by simpa using congrArg fieldN h
  exact hn ▸ wordXYN_of_op hop

end masks

/-- The instruction of `i`'s row with the operands of the word. -/
def withFieldsOf (w : Word) : Instr → Instr
  | .sys _ => .sys (fieldNNN w)
  | .cls => .cls
  | .ret => .ret
  | .jp _ => .jp (fieldNNN w)
  | .call _ => .call (fieldNNN w)
  | .seImm _ _ => .seImm (fieldX w) (fieldKK w)
  | .sneImm _ _ => .sneImm (fieldX w) (fieldKK w)
  | .seReg _ _ => .seReg (fieldX w) (fieldY w)
  | .ldImm _ _ => .ldImm (fieldX w) (fieldKK w)
  | .addImm _ _ => .addImm (fieldX w) (fieldKK w)
  | .ldReg _ _ => .ldReg (fieldX w) (fieldY w)
  | .orReg _ _ => .orReg (fieldX w) (fieldY w)
  | .andReg _ _ => .andReg (fieldX w) (fieldY w)
  | .xorReg _ _ => .xorReg (fieldX w) (fieldY w)
  | .addReg _ _ => .addReg (fieldX w) (fieldY w)
  | .sub _ _ => .sub (fieldX w) (fieldY w)
  | .shr _ _ => .shr (fieldX w) (fieldY w)
  | .subn _ _ => .subn (fieldX w) (fieldY w)
  | .shl _ _ => .shl (fieldX w) (fieldY w)
  | .sneReg _ _ => .sneReg (fieldX w) (fieldY w)
  | .ldI _ => .ldI (fieldNNN w)
  | .jpV0 _ => .jpV0 (fieldNNN w)
  | .rnd _ _ => .rnd (fieldX w) (fieldKK w)
  | .drw _ _ _ => .drw (fieldX w) (fieldY w) (fieldN w)
  | .skp _ => .skp (fieldX w)
  | .sknp _ => .sknp (fieldX w)
  | .ldVxDt _ => .ldVxDt (fieldX w)
  | .ldVxK _ => .ldVxK (fieldX w)
  | .ldDtVx _ => .ldDtVx (fieldX w)
  | .ldStVx _ => .ldStVx (fieldX w)
  | .addI _ => .addI (fieldX w)
  | .ldF _ => .ldF (fieldX w)
  | .ldB _ => .ldB (fieldX w)
  | .storeRegs _ => .storeRegs (fieldX w)
  | .loadRegs _ => .loadRegs (fieldX w)

theorem rowMatch_withFieldsOf (w : Word) (i : Instr) : rowMatch (withFieldsOf w i) = rowMatch i := by
  cases i <;> rfl

/-- A word of `i`'s row is encoded from its own fields. -/
theorem encode_withFieldsOf {w : Word} {i : Instr} (h : w &&& rowMask i = rowMatch i) : encode (withFieldsOf w i) = w := by
  cases i with
  | cls | ret => exact h.symm.trans BitVec.and_allOnes
  | sys | jp | call | ldI | jpV0 => exact wordNNN_of_op (fieldOp_of_masked h)
  | seImm | sneImm | ldImm | addImm | rnd => exact wordXKK_of_op (fieldOp_of_masked h)
  | drw => exact wordXYN_of_op (fieldOp_of_masked h)
  | seReg | sneReg | ldReg | orReg | andReg | xorReg | addReg | sub | shr | subn | shl => exact wordXYN_of_masked h
  | skp | sknp | ldVxDt | ldVxK | ldDtVx | ldStVx | addI | ldF | ldB | storeRegs | loadRegs => exact wordXKK_of_masked h

/-- What is ill-formed is a `SYS` with the word of `CLS` or `RET` (R113). -/
theorem wellFormed_iff {i : Instr} :
    WellFormed i = true ↔ (rowMatch i = 0x0000 → encode i ≠ 0x00E0 ∧ encode i ≠ 0x00EE) := by
  cases i with
  | sys nnn => exact wellFormed_sys_iff.trans ⟨fun h _ => h, fun h => h rfl⟩
  | _ => simp [WellFormed, rowMatch]

/-- Settles O3: the word of a decoded instruction lies in its row, and a word of a row is encoded from its fields. -/
theorem decoderFollowsTheOpcodeMap : Obligations.DecoderFollowsTheOpcodeMap := by
  intro i w
  constructor
  · rintro ⟨j, hj, hrow⟩
    obtain ⟨rfl, hwf⟩ := decodeWord_eq_ok_iff.1 hj
    rw [rowMask_eq, ← hrow, ← rowMask_eq]
    exact ⟨encode_inTableRow j, wellFormed_iff.1 hwf⟩
  · rintro ⟨hmask, hsys⟩
    have henc := encode_withFieldsOf hmask
    have hrow := rowMatch_withFieldsOf w i
    refine ⟨withFieldsOf w i, decodeWord_eq_ok_iff.2 ⟨henc, wellFormed_iff.2 ?_⟩, hrow⟩
    rw [henc, hrow]
    exact hsys

end Sys2Proof
end

section
/-! SUPPORT. A fetched word that is no instruction (spec/40_engine_cycle.md R91 to R93, spec/60_exceptions.md R182). -/

namespace Sys2Proof.Machine

/-- A running engine that fetches a word it neither halts on nor decodes takes the fault that records the word (R93). -/
theorem step_of_decode_error {s : State} {w : Word} {e : DecodeError} (hs : s.status = .running) (hfetch : fetch s = .ok w)
    (hhalt : haltsOn s.cfg w = false) (hdecode : decodeWord s.cfg.strictLowNibble w = .error e) :
    step s = raise (.decodeError w) s := by
  simp [step, cycle, hs, hfetch, hhalt, hdecode]

/-- The zero word decodes to a call, so the engine never halts on an illegal word (R79, R92). -/
theorem haltsOn_of_isIllegal (cfg : Config) {w : Word} (h : isIllegal w = true) : haltsOn cfg w = false := by
  have hw : w ≠ 0 := fun h0 => absurd (h0 ▸ h) (by decide)
  rw [haltsOn, beq_eq_false_iff_ne.2 hw, Bool.and_false]

/-- Settles O39: the strict decoder rejects an illegal word, and in the families 8, E and F the lenient one agrees with it. -/
theorem illegalWordFaults : Obligations.IllegalWordFaults := by
  intro w s hs hpc hw hill hset
  have hfetch : fetch s = .ok w := hw ▸ fetch_setPc s hpc
  have hdecode : decodeWord s.cfg.strictLowNibble w = .error (.illegalWord w) := by
    rw [← decodeWord_eq_error_iff.2 hill]
    obtain hstrict | hop := hset
    · rw [hstrict]
    · exact decodeWord_lenient hop
  exact ⟨_, step_of_decode_error hs hfetch (haltsOn_of_isIllegal _ hill) hdecode, enterFault_status _ _⟩

end Sys2Proof.Machine
end

section
/-! SUPPORT. The cycle of a running engine: what a step does with the word it fetched, how a cycle ends, a held cycle and a placed
word (spec/40_engine_cycle.md R90 to R100); and that every instruction, step and run answers (R95; spec/60_exceptions.md R181). -/

namespace Sys2Proof.Machine

/-! ## Every instruction and every step answers (R95, R181) -/

theorem push_answers (w : Word) (s : State) (k : State → State) : ∃ t, push w s k = .next t := by
  rw [push_eq]
  split <;> exact ⟨_, rfl⟩

theorem pop_answers (s : State) (k : Word → State → State) : ∃ t, pop s k = .next t := by
  rw [pop_eq]
  split <;> exact ⟨_, rfl⟩

theorem orOutOfBounds_answers {α : Type} (r : Except Nat α) (s : State) (k : α → State) :
    ∃ t, orOutOfBounds r s k = .next t := by
  cases r <;> exact ⟨_, rfl⟩

theorem keyDown_answers (v : Byte) (s : State) (k : Bool → State → State) : ∃ t, keyDown v s k = .next t := by
  unfold keyDown
  split
  · split <;> exact ⟨_, rfl⟩
  · exact ⟨_, rfl⟩

/-- Settles O44: the operations that may fault answer the faulted state, and every other instruction answers outright. -/
theorem everyInstructionAnswers : Obligations.EveryInstructionAnswers := by
  intro i s
  cases i with
  | sys nnn | call nnn => exact push_answers s.pc s fun u => u.setPc (addrOperand nnn)
  | ret => exact pop_answers s fun w u => u.setPc w
  | drw x y n => exact orOutOfBounds_answers _ _ _
  | ldB x | storeRegs x | loadRegs x => exact orOutOfBounds_answers _ _ _
  | skp x => exact keyDown_answers _ s fun q u => skipIf q u
  | sknp x => exact keyDown_answers _ s fun q u => skipIf (!q) u
  | _ => exact ⟨_, rfl⟩

theorem runInstr_of_exec {i : Instr} {s t : State} (h : exec i (advance s) = .next t) :
    runInstr i s = .next (endCycle i t) := by
  rw [runInstr, h]

theorem runInstr_answers (i : Instr) (s : State) : ∃ t, runInstr i s = .next t := by
  obtain ⟨t, ht⟩ := everyInstructionAnswers i (advance s)
  exact ⟨_, runInstr_of_exec ht⟩

theorem cycle_answers (s : State) : ∃ t, cycle s = .next t := by
  unfold cycle
  split
  · exact ⟨_, rfl⟩
  · split
    · exact ⟨_, rfl⟩
    · split
      · exact ⟨_, rfl⟩
      · exact runInstr_answers _ _

/-- A step answers a next state, or the fault of a machine that has already taken it (R181, R186; log 8). -/
theorem step_answers (s : State) :
    (∃ f, s.status = .faulted f ∧ step s = .fault f) ∨ ((∀ f, s.status ≠ .faulted f) ∧ ∃ t, step s = .next t) := by
  unfold step
  cases hs : s.status with
  | running => exact .inr ⟨nofun, cycle_answers s⟩
  | halted => exact .inr ⟨nofun, s, rfl⟩
  | faulted f => exact .inl ⟨f, rfl, rfl⟩

/-! ## Every run answers (R99, R186) -/

theorem run_succ_of_next {s t : State} (h : step s = .next t) (n : Nat) :
    Sys2Proof.core.run (n + 1) s = Sys2Proof.core.run n t := by
  have h : Sys2Proof.core.step s = .next t := h
  simp only [Host.Core.run, h]

theorem run_succ_of_fault {s : State} {f : Fault} (h : step s = .fault f) (n : Nat) :
    Sys2Proof.core.run (n + 1) s = .fault f := by
  have h : Sys2Proof.core.step s = .fault f := h
  simp only [Host.Core.run, h]

theorem run_ne_refused (s : State) (n : Nat) (r : Refusal) : Sys2Proof.core.run n s ≠ .refused r := by
  induction n generalizing s with
  | zero => exact nofun
  | succ n ih =>
    obtain ⟨f, -, hf⟩ | ⟨-, t, ht⟩ := step_answers s
    · rw [run_succ_of_fault hf]
      exact nofun
    · rw [run_succ_of_next ht]
      exact ih t

/-- Within `n` steps a run passes through a state that has taken the fault `f`. -/
def FaultsWithin (n : Nat) (s : State) (f : Fault) : Prop :=
  ∃ k < n, ∃ t : State, Sys2Proof.core.run k s = .next t ∧ t.status = .faulted f

theorem faultsWithin_succ_of_fault {s : State} {f g : Fault} (hs : s.status = .faulted g) (hstep : step s = .fault g)
    (n : Nat) : FaultsWithin (n + 1) s f ↔ g = f := by
  constructor
  · rintro ⟨k, -, t, hk, ht⟩
    cases k with
    | zero =>
      obtain rfl := Host.Outcome.next.inj hk
      exact Status.faulted.inj (hs.symm.trans ht)
    | succ k => cases (run_succ_of_fault hstep k).symm.trans hk
  · rintro rfl
    exact ⟨0, n.succ_pos, s, rfl, hs⟩

theorem faultsWithin_succ_of_next {s t : State} {f : Fault} (hs : s.status ≠ .faulted f) (hstep : step s = .next t)
    (n : Nat) : FaultsWithin (n + 1) s f ↔ FaultsWithin n t f := by
  constructor
  · rintro ⟨k, hk, u, hu, hf⟩
    cases k with
    | zero =>
      obtain rfl := Host.Outcome.next.inj hu
      exact absurd hf hs
    | succ k => exact ⟨k, Nat.lt_of_succ_lt_succ hk, u, run_succ_of_next hstep k ▸ hu, hf⟩
  · rintro ⟨k, hk, u, hu, hf⟩
    exact ⟨k + 1, Nat.succ_lt_succ hk, u, (run_succ_of_next hstep k).trans hu, hf⟩

/-- A run answers exactly the fault that a state it passed through had taken (R181, R186; log 8). -/
theorem run_eq_fault_iff (s : State) (n : Nat) (f : Fault) :
    Sys2Proof.core.run n s = .fault f ↔ FaultsWithin n s f := by
  induction n generalizing s with
  | zero => exact ⟨nofun, fun ⟨k, hk, _⟩ => absurd hk k.not_lt_zero⟩
  | succ n ih =>
    obtain ⟨g, hg, hstep⟩ | ⟨hs, t, hstep⟩ := step_answers s
    · rw [faultsWithin_succ_of_fault hg hstep, run_succ_of_fault hstep]
      exact ⟨Host.Outcome.fault.inj, congrArg _⟩
    · rw [faultsWithin_succ_of_next (hs f) hstep, run_succ_of_next hstep]
      exact ih t

/-- Settles O50: by induction on the run, since a step answers a fault only in a state that has taken it. -/
theorem noRunIsRefused : Obligations.NoRunIsRefused := fun s n => ⟨run_ne_refused s n, run_eq_fault_iff s n⟩

/-! ## A fetched word that halts or decodes (R90 to R95) -/

theorem haltsOn_eq_false_iff {cfg : Config} {w : Word} : haltsOn cfg w = false ↔ cfg.zeroWordHalts = false ∨ w ≠ 0 := by
  simp [haltsOn, imp_iff_not_or]

/-- A running engine that fetches a word it halts on halts (R92). -/
theorem step_of_haltsOn {s : State} {w : Word} (hs : s.status = .running) (hfetch : fetch s = .ok w)
    (hhalt : haltsOn s.cfg w = true) : step s = .next (halt s) := by
  simp [step, cycle, hs, hfetch, hhalt]

/-- A running engine that fetches a word it decodes runs the instruction (R94, R95). -/
theorem step_of_decode {s : State} {w : Word} {i : Instr} (hs : s.status = .running) (hfetch : fetch s = .ok w)
    (hhalt : haltsOn s.cfg w = false) (hdecode : decodeWord s.cfg.strictLowNibble w = .ok i) : step s = runInstr i s := by
  simp [step, cycle, hs, hfetch, hhalt, hdecode]

/-- A fetch with both addresses inside memory (R50, R91). -/
theorem fetch_of_pc_le {s : State} (h : s.pc.toNat + 1 ≤ lastAddr) :
    fetch s = .ok (wordOfBytes (s.mem.read s.pc.toNat) (s.mem.read (s.pc.toNat + 1))) :=
  fetch_setPc s h

/-- Settles O36: the word at `pc` is fetched, ends no run, and decodes. -/
theorem stepRunsTheDecodedInstruction : Obligations.StepRunsTheDecodedInstruction := by
  intro i s hs hpc hz hdecode
  rw [step_of_decode hs (fetch_of_pc_le hpc) (haltsOn_eq_false_iff.2 hz) hdecode]
  rfl

theorem keptBut_setStatus (s : State) (q : Status) : KeptBut [.status] s (s.setStatus q) := by
  intro c hc
  cases c <;> simp_all [Kept]

/-- Settles O38: two zero bytes are the word the engine halts on, and the halt writes the status. -/
theorem zeroWordHalts : Obligations.ZeroWordHalts := by
  intro s hs hcfg hpc hhi hlo
  have hfetch : fetch s = .ok 0 := by
    rw [fetch_of_pc_le hpc, hhi, hlo]
    rfl
  have hhalt : haltsOn s.cfg 0 = true := by
    rw [haltsOn, hcfg]
    rfl
  exact ⟨_, step_of_haltsOn hs hfetch hhalt, rfl, keptBut_setStatus s .halted⟩

/-! ## How a cycle ends (R96 to R98, R100) -/

/-- A cycle is held in `LD Vx,K` while the wait has no answer (R98, R164). -/
theorem held_iff {i : Instr} {s : State} : held i s = true ↔ (∃ x, i = .ldVxK x) ∧ s.releaseAnswer = .pending := by
  have hwait : isWait i = true ↔ ∃ x, i = .ldVxK x := by cases i <;> simp [isWait]
  rw [held, Bool.and_eq_true, hwait, beq_iff_eq]

theorem endCycle_of_held {i : Instr} {s : State} (h : held i s = true) : endCycle i s = s.nextDraw := by
  rw [endCycle, if_pos h]

theorem endCycle_of_running {i : Instr} {s : State} (h : held i s = false) (hs : s.status = .running) :
    endCycle i s = (timerCheck (notifyRedraw i s)).nextDraw := by
  simp [endCycle, h, hs]

theorem endCycle_of_faulted {i : Instr} {s : State} {f : Fault} (h : held i s = false) (hs : s.status = .faulted f) :
    endCycle i s = s := by
  simp [endCycle, h, hs]

/-- No instruction but `DRW` asks for a redraw (R96). -/
theorem notifyRedraw_of_not_drw {i : Instr} (h : ∀ x y n, i ≠ .drw x y n) (s : State) : notifyRedraw i s = s := by
  cases i with
  | drw x y n => exact absurd rfl (h x y n)
  | _ => rfl

/-- Settles O37: by the three ways a cycle ends; step 6 does something after `DRW` alone. -/
theorem cycleEndsWithRedrawAndTimerCheck : Obligations.CycleEndsWithRedrawAndTimerCheck := by
  intro i s
  have hfree (h : ∀ x, i = .ldVxK x → s.releaseAnswer ≠ .pending) : held i s = false :=
    Bool.eq_false_iff.2 fun hh => have ⟨⟨x, hx⟩, hp⟩ := held_iff.1 hh; h x hx hp
  refine ⟨fun hs h => ⟨?_, fun hi => ?_⟩, fun f hs h => endCycle_of_faulted (hfree h) hs,
    fun x hx hp => endCycle_of_held (held_iff.2 ⟨⟨x, hx⟩, hp⟩)⟩
  · rintro x y n rfl
    exact endCycle_of_running (hfree h) hs
  · rw [endCycle_of_running (hfree h) hs, notifyRedraw_of_not_drw hi]

/-! ## A held cycle (R98, R164) -/

/-- The hold takes back the advance of `pc` (R98). -/
theorem hold_advance (s : State) : hold (advance s) = s := by
  simp [hold, advance, State.setPc]

/-- `LD Vx,K` without an answer leaves the state before the cycle (R98, R164). -/
theorem runInstr_ldVxK_pending {x : Reg} {s : State} (h : s.releaseAnswer = .pending) :
    runInstr (.ldVxK x) s = .next s.nextDraw := by
  have hanswer : (advance s).releaseAnswer = .pending := h
  have hexec : exec (.ldVxK x) (advance s) = .next s := by
    simp [exec, execLdVxK, hanswer, hold_advance]
  rw [runInstr_of_exec hexec, endCycle_of_held (held_iff.2 ⟨⟨x, rfl⟩, h⟩)]

theorem keptBut_nextDraw (s : State) : KeptBut [.inputs, .drawn] s s.nextDraw := by
  intro c hc
  cases c <;> simp_all [Kept]

theorem wordXKK_ne_zero {op : BitVec 4} (h : op ≠ 0) (x : Reg) (kk : Byte) : wordXKK op x kk ≠ 0 := by
  intro hw
  have hop : op = fieldOp 0 := by rw [← hw, fieldOp_wordXKK]
  exact h hop

/-- Settles O42: the word of `LD Vx,K` is fetched and decoded, and the wait takes back the advance of `pc`. -/
theorem heldEngineStandsStill : Obligations.HeldEngineStandsStill := by
  intro x s hs hpc hw hp
  have hfetch : fetch s = .ok (wordXKK 0xF x 0x0A) := hw ▸ fetch_of_pc_le hpc
  have hhalt := haltsOn_eq_false_iff (cfg := s.cfg).2 (.inr (wordXKK_ne_zero (by decide : (0xF : BitVec 4) ≠ 0) x 0x0A))
  have hstep : step s = .next s.nextDraw :=
    (step_of_decode hs hfetch hhalt (decodeWord_encode _ (i := .ldVxK x) rfl)).trans (runInstr_ldVxK_pending hp)
  exact ⟨_, hstep, rfl, rfl, keptBut_nextDraw s⟩

/-! ## A placed word (log 13) -/

theorem withFetchWord_eq_placeWord (w : Word) (s : State) : s.withFetchWord 16 w.toNat = placeWord w s := by
  have hlt : w.toNat < 2 ^ 16 := w.isLt
  rw [State.withFetchWord, Nat.mod_eq_of_lt hlt, BitVec.ofNat_toNat, BitVec.setWidth_eq]

theorem placeWord_read {s : State} (hm : s.mem.wf) (w : Word) (a : Nat) :
    (placeWord w s).mem.read a =
      if s.pc.toNat ≤ a ∧ a < s.pc.toNat + 2 ∧ a ≤ lastAddr then
        [(bytesOfWord w).1, (bytesOfWord w).2].getD (a - s.pc.toNat) 0
      else s.mem.read a :=
  Memory.load_read hm _ _ a

/-- A placed word is what the next fetch reads (R50, R91). -/
theorem fetch_placeWord {s : State} (hm : s.mem.wf) (hpc : s.pc.toNat + 1 ≤ lastAddr) (w : Word) :
    fetch (placeWord w s) = .ok w := by
  have hhi : (placeWord w s).mem.read s.pc.toNat = (bytesOfWord w).1 := by
    rw [placeWord_read hm, if_pos (by omega), Nat.sub_self]
    rfl
  have hlo : (placeWord w s).mem.read (s.pc.toNat + 1) = (bytesOfWord w).2 := by
    rw [placeWord_read hm, if_pos (by omega), Nat.add_sub_cancel_left]
    rfl
  have hfetch := fetch_of_pc_le (s := placeWord w s) hpc
  rwa [show (placeWord w s).pc = s.pc from rfl, hhi, hlo, wordOfBytes_bytesOfWord] at hfetch

/-- Placing a word changes the status and the two bytes at `pc` alone (log 13). -/
theorem keptButBytes_placeWord {s : State} (hm : s.mem.wf) (w : Word) :
    KeptButBytes [.status] s.pc.toNat 2 s (placeWord w s) := by
  intro c hc hbyte
  refine (kept_setMem s _ ?_).trans (keptBut_setStatus _ _ c hc)
  rintro a rfl
  refine (placeWord_read hm w a).trans (if_neg fun ⟨hge, hlt, _⟩ => ?_)
  exact hbyte (a - s.pc.toNat) (by omega) (by rw [Nat.add_sub_cancel' hge])

/-- Settles O47: the placed word is fetched, is not zero, and decodes. -/
theorem placedWordRunsNext : Obligations.PlacedWordRunsNext := by
  intro w i s hm hpc hw hdecode
  rw [withFetchWord_eq_placeWord]
  exact ⟨step_of_decode rfl (fetch_placeWord hm hpc w) (haltsOn_eq_false_iff.2 (.inr hw)) hdecode,
    keptButBytes_placeWord hm w⟩

end Sys2Proof.Machine
end

section
/-! SUPPORT. Control transfer: where a jump, a call, a return and a skip leave `pc`, `SP` and the stack
(spec/41_control_flow.md R110 to R122). -/

namespace Sys2Proof.Machine

/-! ## Calls and returns (R110, R111, R113, R114, R116) -/

/-- `SYS` and `CALL` are one push and one jump (R113, R116). -/
theorem exec_of_calls {i : Instr} {nnn : Addr12} (hi : i = .sys nnn ∨ i = .call nnn) (s : State) :
    exec i s = push s.pc s fun u => u.setPc (addrOperand nnn) := by
  obtain rfl | rfl := hi <;> rfl

/-- The state after a call to `nnn` that finds a slot: the advanced `pc` is pushed, then replaced by the target (R110, R116). -/
def called (nnn : Addr12) (s : State) (h : pushSlot s < 16) : State :=
  (s.setStack (s.sp + 1) (s.stack.set (pushSlot s) s.pc h)).setPc (addrOperand nnn)

theorem exec_of_calls_with_slot {i : Instr} {nnn : Addr12} {s : State} (hi : i = .sys nnn ∨ i = .call nnn)
    (h : pushSlot s < 16) : exec i s = .next (called nnn s h) := by
  rw [exec_of_calls hi, push_eq, dif_pos h]
  rfl

theorem exec_of_calls_without_slot {i : Instr} {nnn : Addr12} {s : State} (hi : i = .sys nnn ∨ i = .call nnn)
    (h : ¬ pushSlot s < 16) : exec i s = .next (enterFault .stackOverflow s) := by
  rw [exec_of_calls hi, push_eq, dif_neg h]

/-- The state after a return from a stack that is not empty (R111, R114). -/
def returned (s : State) : State := (s.setStack (s.sp - 1) s.stack).setPc (topOfStack s)

theorem exec_ret_of_sp_ne_zero {s : State} (h : s.sp.toNat ≠ 0) : exec .ret s = .next (returned s) :=
  (pop_eq s fun w u => u.setPc w).trans (if_neg h)

theorem exec_ret_of_sp_eq_zero {s : State} (h : s.sp.toNat = 0) : exec .ret s = .next (enterFault .stackUnderflow s) :=
  (pop_eq s fun w u => u.setPc w).trans (if_pos h)

theorem returned_sp_toNat {s : State} (h : s.sp.toNat ≠ 0) : (returned s).sp.toNat = s.sp.toNat - 1 := by
  change (s.sp - 1).toNat = _
  bv_omega

section called
variable {s : State} (nnn : Addr12) (h : pushSlot s < 16)

/-- A push that finds a slot does not wrap `SP`, in either setting of STACK_PREINCREMENT (R110). -/
theorem called_sp_toNat : (called nnn s h).sp.toNat = s.sp.toNat + 1 := by
  have hsp : s.sp.toNat < 16 := by
    unfold pushSlot at h
    split at h <;> omega
  change (s.sp + 1).toNat = _
  bv_omega

theorem keptBut_called : KeptBut [.pc, .sp, .slot ⟨pushSlot s, h⟩] s (called nnn s h) := by
  intro c hc
  simp only [List.mem_cons, List.not_mem_nil, or_false, not_or] at hc
  obtain ⟨hpc, hsp, hslot⟩ := hc
  refine kept_call s _ _ h hpc hsp ?_
  rintro k rfl hk
  exact hslot (congrArg _ (Fin.ext hk))

/-- The slot a return reads right after a call is the one the call wrote (R110, R111). -/
theorem popSlot_called : popSlot (called nnn s h) = pushSlot s := by
  have hcfg : (called nnn s h).cfg = s.cfg := rfl
  rw [popSlot, pushSlot, called_sp_toNat, hcfg, Nat.add_sub_cancel]

theorem topOfStack_called : topOfStack (called nnn s h) = s.pc := by
  have hpop : popSlot (called nnn s h) < 16 := (popSlot_called nnn h).trans_lt h
  rw [topOfStack_eq, dif_pos hpop]
  simp only [popSlot_called]
  exact Vector.getElem_set_self h

/-- A return takes back all of the call but the slot it wrote (R121). -/
theorem kept_returned_called {c : Component} (hc : ∀ k, c ≠ .slot k) : Kept s (returned (called nnn s h)) c := by
  cases c with
  | pc => exact topOfStack_called nnn h
  | sp => exact BitVec.add_sub_cancel s.sp 1
  | slot k => exact absurd rfl (hc k)
  | reg _ | i | dt | st | byte _ | row _ | status | out | cfg | inputs | drawn | collabGone => rfl

end called

/-- Settles O10: after the call `SP` is not 0, and the return reads the slot the call wrote. -/
theorem callThenReturnResumes : Obligations.CallThenReturnResumes := by
  intro nnn s i hi (h : pushSlot s < 16)
  have hsp : (called nnn s h).sp.toNat ≠ 0 := by
    rw [called_sp_toNat]
    exact Nat.succ_ne_zero _
  exact ⟨_, _, exec_of_calls_with_slot hi h, exec_ret_of_sp_ne_zero hsp, fun _ hc => kept_returned_called nnn h hc⟩

/-- Settles O7: by the push, which finds a slot or overflows. -/
theorem callsPushTheReturnAddress : Obligations.CallsPushTheReturnAddress := by
  intro nnn s i hi
  refine ⟨fun (h : pushSlot s < 16) => ?_, fun (h : ¬ pushSlot s < 16) => ?_⟩
  · exact ⟨_, exec_of_calls_with_slot hi h, addrOperand_toNat nnn, called_sp_toNat nnn h, Vector.getElem_set_self h,
      keptBut_called nnn h⟩
  · exact ⟨_, exec_of_calls_without_slot hi h, enterFault_status _ _⟩

/-- Settles O8: by the pop, which finds something or underflows. -/
theorem returnPopsTheReturnAddress : Obligations.ReturnPopsTheReturnAddress := by
  intro s
  refine ⟨fun hsp (h : popSlot s < 16) => ?_, fun hsp => ?_⟩
  · have hsp : s.sp.toNat ≠ 0 := by bv_omega
    exact ⟨_, exec_ret_of_sp_ne_zero hsp, (topOfStack_eq s).trans (dif_pos h), returned_sp_toNat hsp, keptBut_pop s _⟩
  · exact ⟨_, exec_ret_of_sp_eq_zero (congrArg BitVec.toNat hsp), enterFault_status _ _⟩

/-! ## Jumps (R115, R122) -/

theorem wideOperand_toNat (b : Byte) : (wideOperand b).toNat = b.toNat :=
  BitVec.toNat_setWidth_of_le (by decide)

/-- The target of `JP V0,addr` is a sum that never wraps (R122). -/
theorem jpV0_target_toNat (nnn : Addr12) (b : Byte) :
    (addrOperand nnn + wideOperand b).toNat = nnn.toNat + b.toNat := by
  have hnnn := nnn.isLt
  have hb := b.isLt
  rw [BitVec.toNat_add, addrOperand_toNat, wideOperand_toNat]
  omega

/-- Settles O6: each jump writes `pc` alone. -/
theorem jumpsSetThePc : Obligations.JumpsSetThePc := by
  intro nnn s
  exact
    ⟨⟨decodeWord_encode true (i := .jp nnn) rfl, _, rfl, addrOperand_toNat nnn, keptBut_setPc s _⟩,
      ⟨decodeWord_encode true (i := .jpV0 nnn) rfl, _, rfl, jpV0_target_toNat nnn _, keptBut_setPc s _⟩⟩

/-! ## Skips (R112, R117 to R120) -/

/-- A skip on equality (R117, R119). -/
theorem skipIf_beq_pc (a b : Byte) (s : State) : (skipIf (a == b) s).pc = if a = b then s.pc + 2 else s.pc := by
  by_cases h : a = b <;> simp [skipIf, skip, h]

/-- A skip on inequality (R118, R120). -/
theorem skipIf_bne_pc (a b : Byte) (s : State) : (skipIf (a != b) s).pc = if a = b then s.pc else s.pc + 2 := by
  by_cases h : a = b <;> simp [skipIf, skip, h]

/-- Settles O11: each skip is `skipIf` on its comparison. -/
theorem skipsTestEquality : Obligations.SkipsTestEquality := by
  intro x y kk s
  refine ⟨⟨decodeWord_encode true (i := .seImm x kk) rfl, ?_⟩, ⟨decodeWord_encode true (i := .sneImm x kk) rfl, ?_⟩,
    ⟨decodeWord_encode true (i := .seReg x y) rfl, ?_⟩, ⟨decodeWord_encode true (i := .sneReg x y) rfl, ?_⟩⟩
  · exact ⟨_, rfl, skipIf_beq_pc (s.reg x) kk s, keptBut_skipIf _ s⟩
  · exact ⟨_, rfl, skipIf_bne_pc (s.reg x) kk s, keptBut_skipIf _ s⟩
  · exact ⟨_, rfl, skipIf_beq_pc (s.reg x) (s.reg y) s, keptBut_skipIf _ s⟩
  · exact ⟨_, rfl, skipIf_bne_pc (s.reg x) (s.reg y) s, keptBut_skipIf _ s⟩

end Sys2Proof.Machine
end

section
/-! SUPPORT. Register loads, arithmetic, logic, shifts and random: what each leaves in `Vx` and VF
(spec/42_alu.md R130 to R143). -/

namespace Sys2Proof.Machine

/-! ## Plain writes of `Vx` (R132 to R137) -/

/-- A write reads back. -/
theorem setReg_self (s : State) (x : Reg) (b : Byte) : (s.setReg x b).reg x = b := by
  rw [State.setReg_reg, if_pos rfl]

/-- Settles O12: each is one write of `Vx`. -/
theorem loadsAndLogicWriteVxAlone : Obligations.LoadsAndLogicWriteVxAlone := by
  intro x y kk s
  refine ⟨⟨decodeWord_encode true (i := .ldImm x kk) rfl, ?_⟩, ⟨decodeWord_encode true (i := .addImm x kk) rfl, ?_⟩,
    ⟨decodeWord_encode true (i := .ldReg x y) rfl, ?_⟩, ⟨decodeWord_encode true (i := .orReg x y) rfl, ?_⟩,
    ⟨decodeWord_encode true (i := .andReg x y) rfl, ?_⟩, ⟨decodeWord_encode true (i := .xorReg x y) rfl, ?_⟩⟩
  · exact ⟨_, rfl, setReg_self s x kk, keptBut_setReg s x _⟩
  · refine ⟨_, rfl, ?_, keptBut_setReg s x _⟩
    rw [setReg_self, BitVec.toNat_add]
  · exact ⟨_, rfl, setReg_self s x _, keptBut_setReg s x _⟩
  · exact ⟨_, rfl, setReg_self s x _, keptBut_setReg s x _⟩
  · exact ⟨_, rfl, setReg_self s x _, keptBut_setReg s x _⟩
  · exact ⟨_, rfl, setReg_self s x _, keptBut_setReg s x _⟩

/-- Settles O16: one write of `Vx`; to have `r` drawn, put a draw of `r` before the others. -/
theorem randomIsADrawnByteMasked : Obligations.RandomIsADrawnByteMasked := by
  intro x kk s
  refine ⟨decodeWord_encode true (i := .rnd x kk) rfl, ?_, fun r => ?_⟩
  · refine ⟨_, rfl, setReg_self s x _, ?_, keptBut_setReg s x _⟩
    rw [setReg_self, BitVec.and_assoc, BitVec.and_not_self]
    exact BitVec.and_zero
  · exact ⟨{ s.draw with rnd := r }, _, rfl, setReg_self _ x _⟩

/-! ## The flags of the sum and the difference (R138, R139, R141) -/

theorem flagByte_decide (p : Prop) [Decidable p] : flagByte (decide p) = if p then 1 else 0 := by
  by_cases h : p <;> simp [flagByte, h]

theorem flagByte_carryOut (a b : Byte) : flagByte (carryOut a b) = if a.toNat + b.toNat > 255 then 1 else 0 :=
  flagByte_decide _

theorem flagByte_noBorrow (a b : Byte) : flagByte (noBorrow a b) = if a.toNat ≥ b.toNat then 1 else 0 :=
  flagByte_decide _

theorem toNat_byte_sub (a b : Byte) : (a - b).toNat = (256 + a.toNat - b.toNat) % 256 := by
  have hb := b.isLt
  rw [BitVec.toNat_sub]
  omega

/-- Settles O13: a flagged write of the sum with the carry. -/
theorem addSetsTheCarry : Obligations.AddSetsTheCarry := by
  intro x y s
  refine ⟨decodeWord_encode true (i := .addReg x y) rfl, _, rfl, ?_, fun hx => ?_, keptBut_writeFlagged s x _ _⟩
  · rw [writeFlagged_result, BitVec.toNat_add]
  · rw [writeFlagged_flag s x _ _ hx, flagByte_carryOut]

/-- A flagged write of `a - b` with its borrow complemented (R131, R139, R141). -/
theorem writeFlagged_sub (s : State) (x : Reg) (a b : Byte) :
    ((writeFlagged s x (noBorrow a b) (a - b)).reg x).toNat = (256 + a.toNat - b.toNat) % 256 ∧
      (x ≠ regF → (writeFlagged s x (noBorrow a b) (a - b)).reg regF = if a.toNat ≥ b.toNat then 1 else 0) ∧
      KeptBut [.reg x, .reg regF] s (writeFlagged s x (noBorrow a b) (a - b)) := by
  refine ⟨?_, fun hx => ?_, keptBut_writeFlagged s x _ _⟩
  · rw [writeFlagged_result, toNat_byte_sub]
  · rw [writeFlagged_flag s x _ _ hx, flagByte_noBorrow]

/-- Settles O14: both are one subtraction, with the operands in either order. -/
theorem subtractsSetNoBorrow : Obligations.SubtractsSetNoBorrow := by
  intro x y s
  exact
    ⟨⟨decodeWord_encode true (i := .sub x y) rfl, _, rfl, writeFlagged_sub s x (s.reg x) (s.reg y)⟩,
      ⟨decodeWord_encode true (i := .subn x y) rfl, _, rfl, writeFlagged_sub s x (s.reg y) (s.reg x)⟩⟩

/-! ## The shifts (R140, R142) -/

theorem shiftSource_eq (x y : Reg) (s : State) :
    shiftSource x y s = s.reg (if s.cfg.shiftSource = .vy then y else x) := by
  unfold shiftSource
  cases s.cfg.shiftSource <;> rfl

theorem flagByte_toNat (q : Bool) : (flagByte q).toNat = q.toNat := by
  cases q <;> rfl

theorem flagByte_lowBit_toNat (b : Byte) : (flagByte (lowBit b)).toNat = b.toNat % 2 := by
  rw [flagByte_toNat, lowBit, ← BitVec.testBit_toNat, Nat.toNat_testBit, Nat.pow_zero, Nat.div_one]

/-- The top bit of a byte is its value over 128: nothing stands above it. -/
theorem flagByte_highBit_toNat (b : Byte) : (flagByte (highBit b)).toNat = b.toNat / 128 := by
  have hb := b.isLt
  rw [flagByte_toNat, highBit, ← BitVec.testBit_toNat, Nat.toNat_testBit]
  omega

/-- Settles O15: a flagged write of the shifted source with the bit it loses. -/
theorem shiftsMoveTheSourceByOneBit : Obligations.ShiftsMoveTheSourceByOneBit := by
  rintro x y r s rfl
  rw [← shiftSource_eq]
  refine ⟨⟨decodeWord_encode true (i := .shr x y) rfl, _, rfl, ?_, fun hx => ?_, keptBut_writeFlagged s x _ _⟩,
    ⟨decodeWord_encode true (i := .shl x y) rfl, _, rfl, ?_, fun hx => ?_, keptBut_writeFlagged s x _ _⟩⟩
  · rw [writeFlagged_result, BitVec.toNat_ushiftRight, Nat.shiftRight_one]
  · rw [writeFlagged_flag s x _ _ hx, flagByte_lowBit_toNat]
  · rw [writeFlagged_result, BitVec.toNat_shiftLeft, Nat.shiftLeft_eq, Nat.pow_one, Nat.mul_comm]
  · rw [writeFlagged_flag s x _ _ hx, flagByte_highBit_toNat]

end Sys2Proof.Machine
end

section
/-! SUPPORT. The address register and the memory block at `I`: what each instruction stores, loads and leaves
(spec/43_index_memory.md R150 to R157). -/

namespace Sys2Proof.Machine

/-! ## Stores (R153, R156) -/

/-- A store inside memory leaves all but its own bytes, whatever the status (R56, R60). -/
theorem keptButBytes_store {s t : State} (hm : s.mem.wf) {bs : List Byte}
    (hfit : effectiveAddress s bs.length ≤ lastAddr + 1)
    (h : orOutOfBounds (s.mem.writeBlock (effectiveAddress s 0) bs) s (fun m => s.setMem m) = .next t) :
    KeptButBytes [] (effectiveAddress s 0) bs.length s t := by
  obtain ⟨m, hwrite, -⟩ := Memory.writeBlock_ok hm (effectiveAddress s 0) bs (.inr hfit)
  rw [hwrite] at h
  obtain rfl := Host.Outcome.next.inj h
  intro c _ hbyte
  refine kept_setMem s m ?_
  rintro a rfl
  refine Memory.writeBlock_other hwrite ?_
  by_contra hin
  exact hbyte (a - effectiveAddress s 0) (by omega) (congrArg _ (by omega))

/-- The block of `LD [I],Vx` fits where its last byte does (R156). -/
theorem firstRegs_fits {s : State} {x : Reg} (h : effectiveAddress s x.toNat ≤ lastAddr) :
    effectiveAddress s (firstRegs s x).length ≤ lastAddr + 1 := by
  rw [firstRegs_length]
  exact Nat.succ_le_succ h

/-- `LD [I],Vx` inside memory leaves `Vk` at `EA(k)` (R155, R156). -/
theorem execStoreRegs_completes {s : State} {x : Reg} (hm : s.mem.wf) (h : effectiveAddress s x.toNat ≤ lastAddr) :
    ∃ m : Memory, execStoreRegs x s = .next (s.setMem m) ∧
      ∀ k : Reg, k.toNat ≤ x.toNat → m.read (effectiveAddress s k.toNat) = s.reg k := by
  obtain ⟨m, hstore, hread⟩ := store_completes hm (firstRegs_fits h)
  refine ⟨m, hstore, fun k hk => ?_⟩
  rw [hread k.toNat (by rw [firstRegs_length]; omega), firstRegs_getD s hk]

/-- Settles O20: the stored block is `V0` to `Vx`. -/
theorem storeRegsWritesTheBlock : Obligations.StoreRegsWritesTheBlock := by
  intro x s hm h
  obtain ⟨m, hstore, hread⟩ := execStoreRegs_completes hm h
  have hframe := keptButBytes_store hm (firstRegs_fits h) hstore
  rw [firstRegs_length] at hframe
  exact ⟨decodeWord_encode true (i := .storeRegs x) rfl, _, hstore, hread, hframe⟩

/-- No decimal digit of a byte is lost at the width of a memory cell (R153). -/
theorem bcdDigits_toNat (v : Byte) :
    ((bcdDigits v).getD 0 0).toNat = v.toNat / 100 ∧ ((bcdDigits v).getD 1 0).toNat = v.toNat / 10 % 10 ∧
      ((bcdDigits v).getD 2 0).toNat = v.toNat % 10 := by
  have hv := v.isLt
  have hdigit {d : Nat} (hd : d ≤ v.toNat) : (BitVec.ofNat 8 d).toNat = d := Nat.mod_eq_of_lt (by omega)
  exact ⟨hdigit (by omega), hdigit (by omega), hdigit (by omega)⟩

/-- Settles O19: the stored block is the three digits. -/
theorem bcdStoresThreeDigits : Obligations.BcdStoresThreeDigits := by
  intro x s hm h
  have hfit : effectiveAddress s (bcdDigits (s.reg x)).length ≤ lastAddr + 1 := Nat.succ_le_succ h
  obtain ⟨m, hstore, hread⟩ := store_completes hm hfit
  obtain ⟨hundreds, tens, ones⟩ := bcdDigits_toNat (s.reg x)
  refine ⟨decodeWord_encode true (i := .ldB x) rfl, _, hstore, ?_, ?_, ?_, keptButBytes_store hm hfit hstore⟩
  · exact (congrArg BitVec.toNat (hread 0 (by decide : 0 < 3))).trans hundreds
  · exact (congrArg BitVec.toNat (hread 1 (by decide : 1 < 3))).trans tens
  · exact (congrArg BitVec.toNat (hread 2 (by decide : 2 < 3))).trans ones

/-! ## Loads (R157) -/

/-- The state after `LD Vx,[I]` where the block lies inside memory (R155, R157). -/
def loaded (x : Reg) (s : State) : State :=
  s.setV (fillRegs s.v 0 ((List.range (x.toNat + 1)).map fun k => s.mem.read (effectiveAddress s k)))

theorem execLoadRegs_completes {s : State} {x : Reg} (h : effectiveAddress s x.toNat ≤ lastAddr) :
    execLoadRegs x s = .next (loaded x s) := by
  rw [execLoadRegs, Memory.readBlock_eq, if_pos (.inr (Nat.succ_le_succ h))]
  rfl

/-- `LD Vx,[I]` loads `V0` to `Vx` and no register above (R155, R157). -/
theorem loaded_reg (x k : Reg) (s : State) :
    (loaded x s).reg k = if k.toNat ≤ x.toNat then s.mem.read (effectiveAddress s k.toNat) else s.reg k := by
  refine (fillRegs_getElem _ _ _ _ k.isLt).trans ?_
  rw [List.length_map, List.length_range]
  by_cases hk : k.toNat ≤ x.toNat
  · rw [if_pos (by omega), if_pos hk, Nat.sub_zero, List.getD_eq_getElem _ _ (by simp; omega), List.getElem_map,
      List.getElem_range]
  · rw [if_neg (by omega), if_neg hk]
    rfl

/-- Settles O21: the filled registers are `V0` to `Vx`, and the register file alone is replaced. -/
theorem loadRegsReadsTheBlock : Obligations.LoadRegsReadsTheBlock := by
  intro x s h
  refine ⟨decodeWord_encode true (i := .loadRegs x) rfl, _, execLoadRegs_completes h, fun k hk => ?_, fun c hc => ?_⟩
  · rw [loaded_reg, if_pos hk]
  · refine kept_setV s _ ?_
    rintro r rfl
    exact (loaded_reg x r s).trans (if_neg fun hr => hc r hr rfl)

/-- Settles O23: neither the store nor other register values move the block, so the load reads the bytes the store wrote. -/
theorem storeThenLoadRestores : Obligations.StoreThenLoadRestores := by
  intro x s hm h
  obtain ⟨m, hstore, hread⟩ := execStoreRegs_completes hm h
  refine ⟨_, hstore, fun v => ?_⟩
  have hload : execLoadRegs x ((s.setMem m).setV v) = .next (loaded x ((s.setMem m).setV v)) := execLoadRegs_completes h
  refine ⟨_, hload, fun k hk => ?_⟩
  rw [loaded_reg, if_pos hk]
  exact hread k hk

/-! ## The address register (R150 to R152) -/

/-- Five times a byte fits the width of `I` (R152). -/
theorem fontAddress_toNat (b : Byte) : (5 * wideOperand b).toNat = 5 * b.toNat := by
  have hb := b.isLt
  rw [BitVec.toNat_mul, wideOperand_toNat]
  exact Nat.mod_eq_of_lt (show 5 * b.toNat < 65536 by omega)

/-- Settles O18: each is one write of `I`. -/
theorem addressRegisterWritesIAlone : Obligations.AddressRegisterWritesIAlone := by
  intro nnn x s
  refine ⟨⟨decodeWord_encode true (i := .ldI nnn) rfl, _, rfl, addrOperand_toNat nnn, keptBut_setI s _⟩,
    ⟨decodeWord_encode true (i := .addI x) rfl, _, rfl, ?_, keptBut_setI s _⟩,
    ⟨decodeWord_encode true (i := .ldF x) rfl, _, rfl, fontAddress_toNat _, keptBut_setI s _⟩⟩
  rw [State.setI_i, BitVec.toNat_add, wideOperand_toNat]

end Sys2Proof.Machine
end

section
/-! SUPPORT. The keypad and the timer registers: what a key query, the wait for a key and each transfer leave
(spec/44_keypad_timers.md R160 to R167, spec/60_exceptions.md R195 to R209). -/

namespace Sys2Proof.Machine

/-! ## The key query (R163, R203, R209) -/

/-- The state after the query of a key number: the command is sent, and an `Unavailable` answer is noted (R203, R209). -/
def queried (v : Byte) (s : State) : State :=
  if s.keyAnswer = .unavailable then (s.emit (.isKeyPressed (v.truncate 4))).loseCollaborator
  else s.emit (.isKeyPressed (v.truncate 4))

/-- A key number is queried, and an `Unavailable` answer counts as "not pressed" (R163, R209). -/
theorem keyDown_of_le {v : Byte} (hv : v.toNat ≤ 15) (s : State) (k : Bool → State → State) :
    keyDown v s k = .next (k (s.keyAnswer == .down) (queried v s)) := by
  unfold keyDown queried
  rw [if_neg (Nat.not_lt.2 hv)]
  cases s.keyAnswer <;> rfl

theorem keyDown_of_gt_fault {v : Byte} (hv : v.toNat > 15) {s : State} (hcfg : s.cfg.keyOor = .fault)
    (k : Bool → State → State) : keyDown v s k = .next (enterFault (.keyIndexOutOfRange v) s) := by
  rw [keyDown, if_pos hv, hcfg]
  rfl

theorem keyDown_of_gt_notPressed {v : Byte} (hv : v.toNat > 15) {s : State} (hcfg : s.cfg.keyOor = .notPressed)
    (k : Bool → State → State) : keyDown v s k = .next (k false s) := by
  rw [keyDown, if_pos hv, hcfg]

theorem queried_pc (v : Byte) (s : State) : (queried v s).pc = s.pc := by
  unfold queried
  split <;> rfl

theorem queried_out (v : Byte) (s : State) : (queried v s).out = s.out ++ [.isKeyPressed (v.truncate 4)] := by
  unfold queried
  split <;> rfl

/-- A collaborator is gone after a query when it was before, or when the query found it so (R209). -/
theorem queried_collabGone (v : Byte) (s : State) :
    (queried v s).collabGone = true ↔ s.collabGone = true ∨ s.keyAnswer = .unavailable := by
  unfold queried
  split
  · next h => simp [h]
  · next h => simp [h]

theorem keptBut_queried (v : Byte) (s : State) : KeptBut [.out, .collabGone] s (queried v s) := by
  intro c hc
  have hemit : Kept s (s.emit (.isKeyPressed (v.truncate 4))) c := keptBut_emit s _ c (by simp_all)
  unfold queried
  split
  · exact hemit.trans (keptBut_loseCollaborator _ c (by simp_all))
  · exact hemit

/-- A key number keeps its value at the width of a command's key (R165). -/
theorem truncate_key_toNat {v : Byte} (hv : v.toNat ≤ 15) : (v.truncate 4 : Key).toNat = v.toNat := by
  rw [BitVec.truncate, BitVec.toNat_setWidth]
  exact Nat.mod_eq_of_lt (by omega)

theorem skipIf_pc (q : Bool) (s : State) : (skipIf q s).pc = if q = true then s.pc + 2 else s.pc := by
  cases q <;> rfl

/-- A skip on any condition of a query leaves the query's command and note, and changes `pc` besides (R160, R161). -/
theorem skipIf_queried {v : Byte} (hv : v.toNat ≤ 15) (q : Bool) (s : State) :
    ∃ k, (skipIf q (queried v s)).out = s.out ++ [.isKeyPressed k] ∧ k.toNat = v.toNat ∧
      ((skipIf q (queried v s)).collabGone = true ↔ s.collabGone = true ∨ s.keyAnswer = .unavailable) ∧
      KeptBut [.pc, .out, .collabGone] s (skipIf q (queried v s)) := by
  have hskip : KeptBut [.pc] (queried v s) (skipIf q (queried v s)) := keptBut_skipIf q _
  have hout : (skipIf q (queried v s)).out = (queried v s).out := hskip .out (by simp)
  have hgone : (skipIf q (queried v s)).collabGone = (queried v s).collabGone := hskip .collabGone (by simp)
  refine ⟨v.truncate 4, hout.trans (queried_out v s), truncate_key_toNat hv, ?_, fun c hc => ?_⟩
  · rw [hgone, queried_collabGone]
  · exact (keptBut_queried v s c (by simp_all)).trans (hskip c (by simp_all))

/-- `SKP` skips on the answer to its query (R160). -/
theorem exec_skp (x : Reg) (s : State) : exec (.skp x) s = keyDown (s.reg x) s fun down t => skipIf down t := rfl

/-- `SKNP` skips on the opposite of the answer to its query (R161). -/
theorem exec_sknp (x : Reg) (s : State) : exec (.sknp x) s = keyDown (s.reg x) s fun down t => skipIf (!down) t := rfl

/-- Settles O25: each is the query, then `skipIf` on the answer or on its opposite. -/
theorem keySkipsFollowTheAnswer : Obligations.KeySkipsFollowTheAnswer := by
  intro x s hx
  obtain ⟨k, hdown⟩ := skipIf_queried hx (s.keyAnswer == .down) s
  obtain ⟨k', hup⟩ := skipIf_queried hx (!(s.keyAnswer == .down)) s
  refine ⟨⟨decodeWord_encode true (i := .skp x) rfl, _, k, (exec_skp x s).trans (keyDown_of_le hx s _), ?_, hdown⟩,
    ⟨decodeWord_encode true (i := .sknp x) rfl, _, k', (exec_sknp x s).trans (keyDown_of_le hx s _), ?_, hup⟩⟩
  · simp only [skipIf_pc, queried_pc, beq_iff_eq]
  · by_cases h : s.keyAnswer = .down <;> simp [skipIf_pc, queried_pc, h]

/-- Settles O26: an index above 15 sends no query, and "not pressed" is the answer `false`. -/
theorem keyIndexAboveFifteen : Obligations.KeyIndexAboveFifteen := by
  intro x s hx
  refine ⟨fun hcfg i hi => ?_, fun hcfg => ?_⟩
  · have hexec : exec i s = .next (enterFault (.keyIndexOutOfRange (s.reg x)) s) := by
      simp only [List.mem_cons, List.not_mem_nil, or_false] at hi
      obtain rfl | rfl := hi
      · rw [exec_skp, keyDown_of_gt_fault hx hcfg]
      · rw [exec_sknp, keyDown_of_gt_fault hx hcfg]
    exact ⟨_, hexec, rfl, rfl⟩
  · exact ⟨⟨_, (exec_skp x s).trans (keyDown_of_gt_notPressed hx hcfg _), keptBut_refl [] s⟩,
      ⟨_, (exec_sknp x s).trans (keyDown_of_gt_notPressed hx hcfg _), rfl, keptBut_skipIf true s⟩⟩

/-! ## The wait for a key (R98, R164, R204) -/

/-- The state after a wait that a released key has ended (R164). -/
def keyReceived (x : Reg) (k : Key) (s : State) : State := (s.emit .waitForKeyRelease).setReg x (k.zeroExtend 8)

theorem execLdVxK_released {x : Reg} {k : Key} {s : State} (h : s.releaseAnswer = .released k) :
    execLdVxK x s = .next (keyReceived x k s) := by
  rw [execLdVxK, h]
  rfl

theorem execLdVxK_pending {x : Reg} {s : State} (h : s.releaseAnswer = .pending) : execLdVxK x s = .next (hold s) := by
  rw [execLdVxK, h]

theorem execLdVxK_unavailable {x : Reg} {s : State} (h : s.releaseAnswer = .unavailable) :
    execLdVxK x s =
      .next (enterFault .collaboratorUnavailable (s.emit .waitForKeyRelease).loseCollaborator) := by
  rw [execLdVxK, h]

theorem keyReceived_reg_toNat (x : Reg) (k : Key) (s : State) : ((keyReceived x k s).reg x).toNat = k.toNat := by
  rw [keyReceived, setReg_self]
  exact BitVec.toNat_setWidth_of_le (by decide)

theorem keptBut_keyReceived (x : Reg) (k : Key) (s : State) : KeptBut [.reg x, .out] s (keyReceived x k s) := by
  intro c hc
  exact (keptBut_emit s _ c (by simp_all)).trans (keptBut_setReg _ x _ c (by simp_all))

/-- Settles O27: one lemma per answer of the collaborator. -/
theorem waitForKeyStoresTheReleasedKey : Obligations.WaitForKeyStoresTheReleasedKey := by
  intro x s
  refine ⟨decodeWord_encode true (i := .ldVxK x) rfl, fun k h => ?_, fun h => ?_, fun h => ?_⟩
  · exact ⟨_, execLdVxK_released h, keyReceived_reg_toNat x k s, rfl, keptBut_keyReceived x k s⟩
  · exact ⟨_, execLdVxK_pending h, BitVec.sub_add_cancel s.pc 2, keptBut_setPc s _⟩
  · exact ⟨_, execLdVxK_unavailable h, rfl, rfl⟩

/-! ## The timer registers (R162, R166, R167) -/

/-- Settles O28: each is one write, of `Vx` or of `DT`. -/
theorem delayTimerTransfers : Obligations.DelayTimerTransfers := by
  intro x s
  exact ⟨⟨decodeWord_encode true (i := .ldVxDt x) rfl, _, rfl, setReg_self s x s.dt, keptBut_setReg s x _⟩,
    ⟨decodeWord_encode true (i := .ldDtVx x) rfl, _, rfl, rfl, keptBut_setDt s _⟩⟩

/-- The audio edge by the two ways it can go: up from zero, or down to it (R195). -/
theorem audioEdge_eq_ite (was now : Byte) :
    audioEdge was now =
      if was = 0 ∧ now ≠ 0 then [.setAudioEnabled true]
      else if was ≠ 0 ∧ now = 0 then [.setAudioEnabled false] else [] := by
  simp only [audioEdge, bne, beq_eq_decide]
  by_cases hwas : was = 0 <;> by_cases hnow : now = 0 <;> simp_all

theorem writeSt_st (b : Byte) (s : State) : (writeSt b s).st = b := by
  rw [writeSt_eq]

theorem writeSt_out (b : Byte) (s : State) : (writeSt b s).out = s.out ++ audioEdge s.st b := by
  rw [writeSt_eq]

/-- Settles O29: one write of `ST` with its edge command. -/
theorem soundTimerWriteEmitsTheEdge : Obligations.SoundTimerWriteEmitsTheEdge := by
  intro x s
  refine ⟨decodeWord_encode true (i := .ldStVx x) rfl, _, rfl, writeSt_st _ s, ?_, keptBut_writeSt _ s⟩
  rw [writeSt_out, audioEdge_eq_ite]

end Sys2Proof.Machine
end

section
/-! SUPPORT. The display: what a drawn sprite does to each pixel, when a draw collides, what drawing twice and clearing leave
(spec/45_display.md R170 to R174). -/

namespace Sys2Proof.Machine

/-! ## The pixels of a row and of the screen (R31) -/

/-- The zero row has no lit pixel. -/
theorem getLsbD_zero_row (k : Nat) : (0 : Row).getLsbD k = false := BitVec.getLsbD_zero

/-- A row is its pixels. -/
theorem row_ext {p q : Row} (h : ∀ c : Fin 64, p.getLsbD (63 - c.val) = q.getLsbD (63 - c.val)) : p = q := by
  refine BitVec.eq_of_getLsbD_eq fun k hk => ?_
  have hcol := h ⟨63 - k, by omega⟩
  rwa [show 63 - (63 - k) = k by omega] at hcol

/-- Two rows share a set bit where they share a lit column (R173). -/
theorem row_and_ne_zero_iff (p q : Row) :
    p &&& q ≠ 0 ↔ ∃ c : Fin 64, p.getLsbD (63 - c.val) = true ∧ q.getLsbD (63 - c.val) = true := by
  constructor
  · contrapose!
    intro h
    refine row_ext fun c => ?_
    rw [BitVec.getLsbD_and, getLsbD_zero_row, Bool.and_eq_false_imp]
    exact fun hp => Bool.eq_false_of_not_eq_true (h c hp)
  · rintro ⟨c, hp, hq⟩ h
    have hbit : (p &&& q).getLsbD (63 - c.val) = true := by rw [BitVec.getLsbD_and, hp, hq, Bool.and_true]
    rw [h, getLsbD_zero_row] at hbit
    cases hbit

/-- A screen is its pixels. -/
theorem fb_ext {s t : State} (h : ∀ r c, lit s r c = true ↔ lit t r c = true) : s.fb = t.fb :=
  Vector.ext fun r hr => row_ext fun c => Bool.eq_iff_iff.2 (h ⟨r, hr⟩ c)

/-! ## Clearing (R170) -/

/-- Settles O32: the blank screen, then the command. -/
theorem clearUnlightsEveryPixel : Obligations.ClearUnlightsEveryPixel := by
  intro s
  refine ⟨decodeWord_encode true (i := .cls) rfl, _, rfl, fun r c => ?_, rfl, execCls_frame s⟩
  have hrow : blankFb[r] = 0 := Vector.getElem_replicate _
  change blankFb[r].getLsbD _ = false
  rw [hrow, getLsbD_zero_row]

/-! ## A flag register (R23) -/

/-- A register that holds a flag tells whether what the flag stands for is so (R23). -/
theorem flagByte_tells {b : Byte} {q : Bool} {p : Prop} (hb : b = flagByte q) (hq : q = true ↔ p) :
    b = 1 ∧ p ∨ b = 0 ∧ ¬ p := by
  subst hb
  cases q with
  | true => exact .inl ⟨rfl, hq.1 rfl⟩
  | false => exact .inr ⟨rfl, fun hp => Bool.false_ne_true (hq.2 hp)⟩

theorem flagByte_eq_one_iff {b : Byte} {q : Bool} {p : Prop} (hb : b = flagByte q) (hq : q = true ↔ p) : b = 1 ↔ p := by
  rw [hb, ← hq]
  cases q <;> decide

/-! ## The sprite (R171, R174) -/

section draw
variable (x y : Reg) (n : Nibble) (s : State)

/-- The sprite's rows, from `I` upward (R172). -/
def sprite : List Byte := (List.range n.toNat).map fun k => s.mem.read (effectiveAddress s 0 + k)

/-- The blit of `DRW Vx,Vy,n`: the new screen and the collision (R172). -/
def drawBlit : Framebuffer × Bool := blit s.cfg.drwCollision (s.reg x) s.fb (s.reg y).toNat false (sprite n s)

/-- The state after `DRW Vx,Vy,n` where the sprite lies inside memory (R172). -/
def afterDraw : State := writeCollision n (drawBlit x y n s).2 (s.setFb (drawBlit x y n s).1)

/-- The sprite of `DRW Vx,Vy,n` covers the pixel with a set bit (R171). -/
def DrawCovers (r : Fin 32) (c : Fin 64) : Prop :=
  spriteCovers s.mem (effectiveAddress s 0) n.toNat (s.reg x) (s.reg y) r c

/-- The screen row that the sprite's row `i` goes to (R174). -/
def drawRow (i : Nat) : Fin 32 := ⟨((s.reg y).toNat + i) % 32, Nat.mod_lt _ (by decide)⟩

/-- The sprite's row `i`, positioned (R171). -/
def positionedRow (i : Nat) : Row := position (s.mem.read (effectiveAddress s 0 + i)) (s.reg x)

theorem sprite_length : (sprite n s).length = n.toNat := by
  rw [sprite, List.length_map, List.length_range]

theorem sprite_getElem {i : Nat} (hi : i < (sprite n s).length) :
    (sprite n s)[i] = s.mem.read (effectiveAddress s 0 + i) := by
  simp only [sprite, List.getElem_map, List.getElem_range]

theorem sprite_length_le : (sprite n s).length ≤ 32 := by
  have := n.isLt
  rw [sprite_length]
  omega

/-- A sprite is at most 15 rows high, so no two of its rows go to one row of the screen (R174(c)). -/
theorem drawRow_inj {i j : Nat} (hi : i < n.toNat) (hj : j < n.toNat) (h : drawRow y s i = drawRow y s j) : i = j := by
  have := n.isLt
  have hval := congrArg Fin.val h
  simp only [drawRow] at hval
  omega

theorem drawCovers_iff (r : Fin 32) (c : Fin 64) :
    DrawCovers x y n s r c ↔
      ∃ i < n.toNat, r = drawRow y s i ∧ (positionedRow x s i).getLsbD (63 - c.val) = true := by
  refine exists_congr fun i => and_congr_right fun _ => ?_
  rw [positionedRow, position_bit _ _ _ c.isLt, Fin.ext_iff]
  constructor
  · rintro ⟨j, hj, hr, hc, hbit⟩
    exact ⟨hr, j, hj, hc, hbit⟩
  · rintro ⟨hr, j, hj, hc, hbit⟩
    exact ⟨j, hj, hr, hc, hbit⟩

/-- On the screen row of the sprite's row `i` the sprite covers the columns of that row alone. -/
theorem drawCovers_drawRow {i : Nat} (hi : i < n.toNat) (c : Fin 64) :
    DrawCovers x y n s (drawRow y s i) c ↔ (positionedRow x s i).getLsbD (63 - c.val) = true := by
  rw [drawCovers_iff]
  constructor
  · rintro ⟨j, hj, hrow, hbit⟩
    rwa [drawRow_inj y n s hi hj hrow]
  · intro hbit
    exact ⟨i, hi, rfl, hbit⟩

/-! ## The drawn screen (R172) -/

theorem drawBlit_drawRow {i : Nat} (hi : i < n.toNat) :
    (drawBlit x y n s).1[drawRow y s i] = s.fb[drawRow y s i] ^^^ positionedRow x s i := by
  have hlen : i < (sprite n s).length := by rwa [sprite_length]
  have hrow := blit_row s.cfg.drwCollision (s.reg x) (sprite n s) s.fb (s.reg y).toNat false i hlen (sprite_length_le n s)
  rwa [sprite_getElem] at hrow

theorem drawBlit_other {r : Fin 32} (h : ∀ i < n.toNat, r ≠ drawRow y s i) : (drawBlit x y n s).1[r] = s.fb[r] := by
  refine blit_row_other _ _ _ _ _ _ r.val r.isLt fun i hi hrow => ?_
  exact h i (by rwa [sprite_length] at hi) (Fin.ext hrow.symm)

/-- A draw inverts exactly the pixels that the sprite covers (R172). -/
theorem lit_afterDraw (r : Fin 32) (c : Fin 64) :
    lit (afterDraw x y n s) r c = true ↔ ¬ (lit s r c = true ↔ DrawCovers x y n s r c) := by
  have hlit : lit (afterDraw x y n s) r c = (drawBlit x y n s).1[r].getLsbD (63 - c.val) := by
    rw [lit, afterDraw, writeCollision_fb, State.setFb_fb]
  rw [hlit]
  by_cases h : ∃ i < n.toNat, r = drawRow y s i
  · obtain ⟨i, hi, rfl⟩ := h
    rw [drawCovers_drawRow x y n s hi, drawBlit_drawRow x y n s hi, BitVec.getLsbD_xor, Bool.xor_iff_ne, ne_eq,
      Bool.eq_iff_iff, lit]
  · have hrow : ∀ i < n.toNat, r ≠ drawRow y s i := fun i hi hr => h ⟨i, hi, hr⟩
    have hcov : ¬ DrawCovers x y n s r c := by
      rw [drawCovers_iff]
      rintro ⟨i, hi, hr, -⟩
      exact hrow i hi hr
    rw [drawBlit_other x y n s hrow, ← lit]
    tauto

/-- A pixel goes out exactly when it was lit and the sprite covers it (R172). -/
theorem turnedOff_iff (r : Fin 32) (c : Fin 64) :
    (lit s r c = true ∧ lit (afterDraw x y n s) r c = false) ↔ (lit s r c = true ∧ DrawCovers x y n s r c) := by
  refine and_congr_right fun hs => ?_
  rw [← Bool.not_eq_true, lit_afterDraw]
  tauto

/-! ## The collision (R173) -/

/-- The sprite's row `i` meets a lit pixel where a pixel of its screen row goes out. -/
theorem row_collides_iff {i : Nat} (hi : i < n.toNat) :
    s.fb[drawRow y s i] &&& positionedRow x s i ≠ 0 ↔
      ∃ c, lit s (drawRow y s i) c = true ∧ lit (afterDraw x y n s) (drawRow y s i) c = false := by
  rw [row_and_ne_zero_iff]
  refine exists_congr fun c => ?_
  rw [turnedOff_iff, drawCovers_drawRow x y n s hi, lit]

/-- With OR aggregation a draw collides when some pixel of the screen goes out. -/
theorem drawBlit_collides_iff (h : s.cfg.drwCollision = .orRows) :
    (drawBlit x y n s).2 = true ↔ ∃ r c, lit s r c = true ∧ lit (afterDraw x y n s) r c = false := by
  rw [drawBlit, h, blit_collision _ _ _ _ _ (sprite_length_le n s)]
  constructor
  · rintro (hfalse | ⟨i, hlen, hrow⟩)
    · cases hfalse
    · have hi : i < n.toNat := by rwa [sprite_length] at hlen
      rw [sprite_getElem] at hrow
      exact ⟨_, (row_collides_iff x y n s hi).1 hrow⟩
  · rintro ⟨r, c, hoff⟩
    obtain ⟨i, hi, rfl, -⟩ := (drawCovers_iff x y n s r c).1 ((turnedOff_iff x y n s r c).1 hoff).2
    have hlen : i < (sprite n s).length := by rwa [sprite_length]
    refine .inr ⟨i, hlen, ?_⟩
    rw [sprite_getElem]
    exact (row_collides_iff x y n s hi).2 ⟨c, hoff⟩

/-- With the last row's aggregation a draw collides when some pixel of the last row goes out. -/
theorem drawBlit_collides_lastRow_iff (h : s.cfg.drwCollision = .lastRow) (hn : n ≠ 0) :
    (drawBlit x y n s).2 = true ↔
      ∃ c, lit s (drawRow y s (n.toNat - 1)) c = true ∧
        lit (afterDraw x y n s) (drawRow y s (n.toNat - 1)) c = false := by
  have hpos : 0 < n.toNat := Nat.pos_of_ne_zero fun h0 => hn (BitVec.eq_of_toNat_eq h0)
  have hne : sprite n s ≠ [] := List.ne_nil_of_length_pos (by rwa [sprite_length])
  rw [drawBlit, h, blit_collision_last _ _ _ _ _ (sprite_length_le n s) hne, bne_iff_ne,
    ← row_collides_iff x y n s (by omega), List.getLast_eq_getElem, sprite_getElem]
  simp only [sprite_length]
  rfl

/-- VF tells of the collision, but for an empty sprite with the last row's aggregation (R172, R173). -/
theorem afterDraw_flag (h : s.cfg.drwCollision = .orRows ∨ n ≠ 0) :
    (afterDraw x y n s).reg regF = flagByte (drawBlit x y n s).2 := by
  rw [afterDraw, writeCollision]
  split
  · exact setReg_self _ _ _
  · next hcfg =>
    rw [if_neg (h.resolve_left fun hor => by cases hcfg.symm.trans hor)]
    exact setReg_self _ _ _

/-- With the last row's aggregation a sprite of no rows does nothing (R173). -/
theorem afterDraw_empty (h : s.cfg.drwCollision = .lastRow) : afterDraw x y 0 s = s := by
  rw [afterDraw, writeCollision, State.setFb_cfg, h]
  rfl

/-! ## Execution -/

variable {n s} in
/-- A sprite of no rows, or one whose last row lies inside memory, is drawn (R172). -/
theorem exec_drw (h : n = 0 ∨ effectiveAddress s (n.toNat - 1) ≤ lastAddr) :
    exec (.drw x y n) s = .next (afterDraw x y n s) := by
  have hfit : n.toNat = 0 ∨ effectiveAddress s 0 + n.toNat ≤ lastAddr + 1 := by
    rcases h with rfl | h
    · exact .inl rfl
    · simp only [effectiveAddress] at h ⊢
      omega
  change execDrw x y n s = _
  rw [execDrw, Memory.readBlock_eq, if_pos hfit]
  rfl

/-- A draw changes VF and the screen alone (R172). -/
theorem keptButRows_afterDraw : KeptButRows [.reg regF] s (afterDraw x y n s) := by
  intro c hc hrow
  exact (kept_setFb s _ fun r hr => absurd hr (hrow r)).trans (keptBut_writeCollision _ _ _ c hc)

end draw

/-! ## The obligations of one draw (R171 to R174) -/

/-- Settles O33: the draw inverts the covered pixels, and VF tells whether one of them went out. -/
theorem drawIsThePixelwiseXor : Obligations.DrawIsThePixelwiseXor := by
  intro x y n s h
  refine ⟨decodeWord_encode true (i := .drw x y n) rfl, _, exec_drw x y h, lit_afterDraw x y n s, fun hor => ?_,
    keptButRows_afterDraw x y n s⟩
  have htells := flagByte_tells (afterDraw_flag x y n s (.inl hor)) (drawBlit_collides_iff x y n s hor)
  simpa only [not_exists, not_and, Bool.not_eq_false] using htells

/-- Settles O34: the blit's last collision is the last row's, and with no rows the draw does nothing. -/
theorem drawWithLastRowCollision : Obligations.DrawWithLastRowCollision := by
  intro x y n s hlast h
  refine ⟨_, exec_drw x y h, ?_, fun hn r hr => ?_⟩
  · rintro rfl
    rw [afterDraw_empty x y s hlast]
    exact keptBut_refl _ _
  · obtain rfl : r = drawRow y s (n.toNat - 1) := Fin.ext hr
    have htells := flagByte_tells (afterDraw_flag x y n s (.inr hn)) (drawBlit_collides_lastRow_iff x y n s hlast hn)
    simpa only [not_exists, not_and, Bool.not_eq_false] using htells

/-! ## A second draw (R172, R173; log 14) -/

section twice
variable (x y : Reg) (n : Nibble) (s : State)

/-- The state between two draws: the first one's screen, and any register file. -/
def betweenDraws (v : Vector Byte 16) : State := (s.setFb (afterDraw x y n s).fb).setV v

/-- A draw changes nothing but the screen and the register file, so other registers hide which flag it wrote. -/
theorem afterDraw_setV (v : Vector Byte 16) : (afterDraw x y n s).setV v = betweenDraws x y n s v := by
  rw [betweenDraws, afterDraw, writeCollision]
  split
  · rfl
  · split <;> rfl

variable {x y n s} {v : Vector Byte 16}

theorem lit_betweenDraws (r : Fin 32) (c : Fin 64) :
    lit (betweenDraws x y n s v) r c = lit (afterDraw x y n s) r c := rfl

variable (hx : (betweenDraws x y n s v).reg x = s.reg x) (hy : (betweenDraws x y n s v).reg y = s.reg y)

include hy in
theorem drawRow_betweenDraws (i : Nat) : drawRow y (betweenDraws x y n s v) i = drawRow y s i :=
  Fin.ext (congrArg (fun b : Byte => (b.toNat + i) % 32) hy)

include hx hy

/-- At the same coordinates the second draw covers the pixels that the first one covered. -/
theorem drawCovers_betweenDraws (r : Fin 32) (c : Fin 64) :
    DrawCovers x y n (betweenDraws x y n s v) r c ↔ DrawCovers x y n s r c := by
  rw [DrawCovers, hx, hy]
  rfl

/-- A covered pixel is inverted twice, every other one never. -/
theorem fb_afterDraw_betweenDraws : (afterDraw x y n (betweenDraws x y n s v)).fb = s.fb := by
  refine fb_ext fun r c => ?_
  rw [lit_afterDraw, drawCovers_betweenDraws hx hy, lit_betweenDraws, lit_afterDraw]
  tauto

/-- The second draw puts out the covered pixels that the first draw lit: those unlit before it. -/
theorem turnedOff_betweenDraws (r : Fin 32) (c : Fin 64) :
    (lit (betweenDraws x y n s v) r c = true ∧ lit (afterDraw x y n (betweenDraws x y n s v)) r c = false) ↔
      lit s r c = false ∧ DrawCovers x y n s r c := by
  rw [turnedOff_iff, drawCovers_betweenDraws hx hy, lit_betweenDraws, lit_afterDraw, ← Bool.not_eq_true]
  tauto

end twice

/-- Settles O35: the second draw runs in the first one's screen and covers the same pixels. -/
theorem drawTwiceRestoresTheScreen : Obligations.DrawTwiceRestoresTheScreen := by
  intro x y n s h
  refine ⟨_, exec_drw x y h, fun v hx hy => ?_⟩
  rw [afterDraw_setV] at hx hy ⊢
  have hoff := turnedOff_betweenDraws (n := n) hx hy
  refine ⟨_, exec_drw x y h, fb_afterDraw_betweenDraws hx hy, fun hor => ?_, fun hlast hn => ?_⟩
  · have hcollides := drawBlit_collides_iff x y n (betweenDraws x y n s v) hor
    simp only [hoff] at hcollides
    exact flagByte_eq_one_iff (afterDraw_flag x y n _ (.inl hor)) hcollides
  · have hcollides := drawBlit_collides_lastRow_iff x y n (betweenDraws x y n s v) hlast hn
    simp only [hoff, drawRow_betweenDraws hy] at hcollides
    refine (flagByte_eq_one_iff (afterDraw_flag x y n _ (.inr hn)) hcollides).trans ⟨?_, ?_⟩
    · rintro ⟨c, hpixel⟩
      exact ⟨_, c, rfl, hpixel⟩
    · rintro ⟨r, c, hr, hpixel⟩
      obtain rfl : r = drawRow y s (n.toNat - 1) := Fin.ext hr
      exact ⟨c, hpixel⟩

end Sys2Proof.Machine
end

section
/-! SUPPORT. The timers under the tick, the checked accesses that find no address, and faults: what raises one, what it leaves,
and the stopped machine (spec/60_exceptions.md R180 to R195). -/

namespace Sys2Proof.Machine

/-! ## The timers (R191 to R195) -/

theorem toNat_byte_of_sub (b : Byte) (p : Nat) : (BitVec.ofNat 8 (b.toNat - p)).toNat = b.toNat - p :=
  Nat.mod_eq_of_lt (by omega)

/-- A decrement of one floored at 0, as a truncated subtraction (R192). -/
theorem byte_decrement (b : Byte) : (if b.toNat > 0 then b - 1 else b) = BitVec.ofNat 8 (b.toNat - 1) := by
  refine BitVec.eq_of_toNat_eq ?_
  rw [toNat_byte_of_sub]
  split
  · bv_omega
  · omega

theorem audioEdge_self (b : Byte) : audioEdge b b = [] := by
  simp [audioEdge]

/-- A fall of `ST` emits the command to turn the sound off exactly when it reaches zero (R195). -/
theorem audioEdge_fall (b : Byte) (p : Nat) :
    audioEdge b (BitVec.ofNat 8 (b.toNat - p)) = if b ≠ 0 ∧ b.toNat ≤ p then [.setAudioEnabled false] else [] := by
  have hzero : BitVec.ofNat 8 (b.toNat - p) = 0 ↔ b.toNat ≤ p := by
    rw [← BitVec.toNat_inj, toNat_byte_of_sub]
    exact Nat.sub_eq_zero_iff_le
  have hrise : ¬ (b = 0 ∧ ¬ b.toNat ≤ p) := by
    rintro ⟨rfl, h⟩
    exact h p.zero_le
  simp only [audioEdge_eq_ite, ne_eq, hzero, hrise, if_false]

section catchUp
variable (p : Nat) (s : State)

theorem timerCatchUp_dt : (timerCatchUp p s).dt.toNat = s.dt.toNat - p := by
  rw [timerCatchUp_eq, toNat_byte_of_sub]

theorem timerCatchUp_st : (timerCatchUp p s).st.toNat = s.st.toNat - p := by
  rw [timerCatchUp_eq, toNat_byte_of_sub]

theorem timerCatchUp_out :
    (timerCatchUp p s).out = s.out ++ if s.st ≠ 0 ∧ s.st.toNat ≤ p then [.setAudioEnabled false] else [] := by
  rw [timerCatchUp_eq, audioEdge_fall]

theorem keptBut_timerCatchUp : KeptBut [.dt, .st, .out] s (timerCatchUp p s) := fun c hc =>
  (keptBut_setDt s _ c (by simp_all)).trans (keptBut_writeSt _ _ c (by simp_all))

theorem timerCatchUp_zero : timerCatchUp 0 s = s := by
  simp [timerCatchUp_eq, audioEdge_self]

/-- A tick is the catch-up of one period (R192). -/
theorem timerDecrement_eq_timerCatchUp : timerDecrement s = timerCatchUp 1 s := by
  rw [timerDecrement_eq, timerCatchUp_eq, ← byte_decrement, ← byte_decrement]
  by_cases hst : s.st.toNat > 0 <;> simp [hst, audioEdge_self]

/-- Every timer check is a catch-up, of at most one period unless TIMER_CATCHUP (R97, R192). -/
theorem timerCheck_eq_timerCatchUp :
    timerCheck s = timerCatchUp (if s.cfg.timerCatchup then s.draw.periods else min 1 s.draw.periods) s := by
  unfold timerCheck
  split
  · rfl
  · split
    · next hp => rw [timerDecrement_eq_timerCatchUp, Nat.min_eq_left hp]
    · next hp => rw [Nat.eq_zero_of_not_pos hp, Nat.min_zero, timerCatchUp_zero]

end catchUp

/-- Settles O30: the check is a catch-up by the tick. -/
theorem timerCheckDecrementsByTheTick : Obligations.TimerCheckDecrementsByTheTick := by
  rintro p s rfl
  rw [timerCheck_eq_timerCatchUp]
  exact ⟨timerCatchUp_dt _ s, timerCatchUp_st _ s, timerCatchUp_out _ s, keptBut_timerCatchUp _ s⟩

/-- Settles O31: by induction on the decrements, each of them one less, floored at 0. -/
theorem timersDecayToZero : Obligations.TimersDecayToZero := by
  intro m s
  induction m with
  | zero => exact ⟨rfl, rfl⟩
  | succ m ih =>
    obtain ⟨hdt, hst⟩ := ih
    rw [Function.iterate_succ_apply', timerDecrement_eq_timerCatchUp, timerCatchUp_dt, timerCatchUp_st, hdt, hst]
    exact ⟨Nat.sub_sub _ _ _, Nat.sub_sub _ _ _⟩

/-! ## Accesses above 0xFFF (R56, R183) -/

theorem orOutOfBounds_of_error {α : Type} {r : Except Nat α} {a : Nat} (h : r = .error a) (s : State) (k : α → State) :
    ∃ t, orOutOfBounds r s k = .next t ∧ t.status = .faulted (.outOfBoundsAccess a) := by
  subst h
  exact ⟨_, rfl, rfl⟩

theorem readBlock_error (m : Memory) {a n : Nat} (h : ¬ (n = 0 ∨ a + n ≤ lastAddr + 1)) :
    m.readBlock a n = .error (max a (lastAddr + 1)) := by
  rw [Memory.readBlock_eq, if_neg h]

/-- When a block of `n` bytes at `I` does not lie inside memory (R183). -/
theorem block_out_of_range {s : State} {n : Nat} (hn : n ≠ 0) (h : s.i.toNat + n > lastAddr + 1) :
    ¬ (n = 0 ∨ effectiveAddress s 0 + n ≤ lastAddr + 1) := by
  have hbase : effectiveAddress s 0 = s.i.toNat := rfl
  omega

/-- A fetch with an address above 0xFFF records the first such address (R91, R183). -/
theorem fetch_error {s : State} (h : s.pc.toNat ≥ lastAddr) : fetch s = .error (max s.pc.toNat (lastAddr + 1)) := by
  unfold fetch
  split
  · next hpc => rw [Nat.max_eq_left hpc]
  · next hpc =>
    have hlast : s.pc.toNat = lastAddr := Nat.le_antisymm (Nat.le_of_not_gt hpc) h
    simp [hlast]

theorem step_of_fetch_error {s : State} {a : Nat} (hs : s.status = .running) (h : fetch s = .error a) :
    step s = raise (.outOfBoundsAccess a) s := by
  simp [step, cycle, hs, h]

/-- Settles O22: the two stores and the two loads are block accesses at `I`, and the fetch is one of two bytes at `pc`. -/
theorem outOfRangeFaultsAtTheFirstAddress : Obligations.OutOfRangeFaultsAtTheFirstAddress := by
  intro x y n s
  have hlast : lastAddr = 0xFFF := rfl
  refine ⟨fun h => ?_, fun h => ⟨?_, ?_⟩, fun hn h => ?_, fun hs h => ?_⟩
  · have hlen : (bcdDigits (s.reg x)).length = 3 := rfl
    exact orOutOfBounds_of_error (Memory.writeBlock_error _ _ _ (block_out_of_range (by omega) (by omega))) s _
  · have hlen := firstRegs_length s x
    exact orOutOfBounds_of_error (Memory.writeBlock_error _ _ _ (block_out_of_range (by omega) (by omega))) s _
  · exact orOutOfBounds_of_error (readBlock_error s.mem (block_out_of_range (by omega) (by omega))) s _
  · have hrows : n.toNat ≠ 0 := fun h0 => hn (BitVec.eq_of_toNat_eq h0)
    exact orOutOfBounds_of_error (readBlock_error s.mem (block_out_of_range hrows (by omega))) s _
  · exact ⟨_, step_of_fetch_error hs (fetch_error h), rfl⟩

/-! ## Who raises which fault (R180, R189) -/

theorem status_ne_faulted {s : State} (h : s.isFaulted = false) (f : Fault) : s.status ≠ .faulted f := by
  intro hf
  simp [State.isFaulted, hf] at h

/-- A block read that fails records an address above 0xFFF, whatever it reads (R56). -/
theorem lt_of_readBlock_error {m : Memory} {a n e : Nat} (h : m.readBlock a n = .error e) : lastAddr < e := by
  rw [Memory.readBlock_eq] at h
  split at h
  · cases h
  · obtain rfl := Except.error.inj h
    exact Nat.le_max_right _ _

/-- A block write that fails records an address above 0xFFF, whatever the memory's form (R56). -/
theorem lt_of_writeBlock_error {m : Memory} {a e : Nat} {bs : List Byte} (h : m.writeBlock a bs = .error e) :
    lastAddr < e := by
  induction bs generalizing m a with
  | nil => cases h
  | cons b bs ih =>
    simp only [Memory.writeBlock] at h
    split at h
    · exact ih h
    · next ha =>
      obtain rfl := Except.error.inj h
      exact Nat.lt_of_not_le ha

section raises
variable {s t : State} {f : Fault} (hf : t.status = .faulted f) (hne : t.status ≠ s.status)
include hf hne

theorem execCall_raises {nnn : Addr12} (h : execCall nnn s = .next t) : f = .stackOverflow := by
  rw [execCall, push_eq] at h
  split at h <;> obtain rfl := Host.Outcome.next.inj h
  · exact absurd rfl hne
  · exact (Status.faulted.inj hf).symm

theorem execRet_raises (h : execRet s = .next t) : f = .stackUnderflow := by
  rw [execRet, pop_eq] at h
  split at h <;> obtain rfl := Host.Outcome.next.inj h
  · exact (Status.faulted.inj hf).symm
  · exact absurd rfl hne

theorem orOutOfBounds_raises {α : Type} {r : Except Nat α} {k : α → State} (h : orOutOfBounds r s k = .next t)
    (hk : ∀ a, (k a).status = s.status) (hr : ∀ a, r = .error a → lastAddr < a) :
    ∃ a, f = .outOfBoundsAccess a ∧ lastAddr < a := by
  obtain ⟨a, -, rfl⟩ | ⟨a, ha, rfl⟩ := orOutOfBounds_cases h
  · exact absurd (hk a) hne
  · exact ⟨a, (Status.faulted.inj hf).symm, hr a ha⟩

theorem keyDown_raises {v : Byte} {q : Bool → Bool} (h : keyDown v s (fun a u => skipIf (q a) u) = .next t) :
    f = .keyIndexOutOfRange v ∧ 15 < v.toNat := by
  have hskip (a : Bool) (u : State) : (skipIf a u).status = u.status := keptBut_skipIf a u .status (by decide)
  obtain ⟨hv, -, rfl⟩ | ⟨-, -, rfl⟩ | ⟨-, -, rfl⟩ | ⟨-, -, rfl⟩ := keyDown_cases h
  · exact ⟨(Status.faulted.inj hf).symm, hv⟩
  · exact absurd (hskip _ _) hne
  · exact absurd (hskip _ _) hne
  · exact absurd (hskip _ _) hne

theorem execLdVxK_raises {x : Reg} (h : execLdVxK x s = .next t) : f = .collaboratorUnavailable := by
  cases hr : s.releaseAnswer with
  | pending =>
    obtain rfl := Host.Outcome.next.inj ((execLdVxK_pending hr).symm.trans h)
    exact absurd rfl hne
  | released k =>
    obtain rfl := Host.Outcome.next.inj ((execLdVxK_released hr).symm.trans h)
    exact absurd rfl hne
  | unavailable =>
    obtain rfl := Host.Outcome.next.inj ((execLdVxK_unavailable hr).symm.trans h)
    exact (Status.faulted.inj hf).symm

end raises

/-- Settles O43: the fault of each shared operation, and no other instruction writes the status. -/
theorem eachInstructionRaisesItsOwnFault : Obligations.EachInstructionRaisesItsOwnFault := by
  intro i s t f hs h hf
  have hne : t.status ≠ s.status := fun e => status_ne_faulted hs f (e ▸ hf)
  cases i with
  | sys nnn => exact .inl ⟨execCall_raises (nnn := nnn) hf hne h, nnn, .inl rfl⟩
  | call nnn => exact .inl ⟨execCall_raises hf hne h, nnn, .inr rfl⟩
  | ret => exact .inr (.inl ⟨execRet_raises hf hne h, rfl⟩)
  | ldB x =>
    have hout := orOutOfBounds_raises hf hne h (fun _ => rfl) fun _ => lt_of_writeBlock_error
    exact .inr (.inr (.inl ⟨hout, .inl ⟨x, .inl rfl⟩⟩))
  | storeRegs x =>
    have hout := orOutOfBounds_raises hf hne h (fun _ => rfl) fun _ => lt_of_writeBlock_error
    exact .inr (.inr (.inl ⟨hout, .inl ⟨x, .inr (.inl rfl)⟩⟩))
  | loadRegs x =>
    have hout := orOutOfBounds_raises hf hne h (fun _ => rfl) fun _ => lt_of_readBlock_error
    exact .inr (.inr (.inl ⟨hout, .inl ⟨x, .inr (.inr rfl)⟩⟩))
  | drw x y n =>
    have hout := orOutOfBounds_raises hf hne h (fun _ => keptBut_writeCollision _ _ _ .status (by decide))
      fun _ => lt_of_readBlock_error
    exact .inr (.inr (.inl ⟨hout, .inr ⟨x, y, n, rfl⟩⟩))
  | ldVxK x => exact .inr (.inr (.inr (.inl ⟨execLdVxK_raises hf hne h, x, rfl⟩)))
  | skp x =>
    obtain ⟨rfl, hv⟩ := keyDown_raises (q := fun a => a) hf hne h
    exact .inr (.inr (.inr (.inr ⟨x, rfl, hv, .inl rfl⟩)))
  | sknp x =>
    obtain ⟨rfl, hv⟩ := keyDown_raises (q := fun a => !a) hf hne h
    exact .inr (.inr (.inr (.inr ⟨x, rfl, hv, .inr rfl⟩)))
  | seImm x a | sneImm x a | seReg x a | sneReg x a =>
    obtain rfl := Host.Outcome.next.inj h
    exact absurd (keptBut_skipIf _ s .status (by decide)) hne
  | ldStVx x =>
    obtain rfl := Host.Outcome.next.inj h
    exact absurd (keptBut_writeSt _ s .status (by decide)) hne
  | _ =>
    obtain rfl := Host.Outcome.next.inj h
    exact absurd rfl hne

/-! ## The faulted and the halted machine (R32, R181, R186) -/

theorem step_of_faulted {s : State} {f : Fault} (h : s.status = .faulted f) : step s = .fault f := by
  rw [step, h]

theorem step_of_halted {s : State} (h : s.status = .halted) : step s = .next s := by
  rw [step, h]

/-- Settles O40: what a fault leaves is made of the parameters, the environment and the commands alone. -/
theorem faultLeavesOnlyItsMark : Obligations.FaultLeavesOnlyItsMark := by
  intro f s s'
  refine ⟨⟨enterFault f s, rfl, rfl, rfl, step_of_faulted rfl⟩, fun hout hcfg hinputs hdrawn hgone => ?_⟩
  exact congrArg Host.Outcome.next (enterFault_congr f s hout hcfg hinputs hdrawn hgone)

/-- Settles O41: a halted machine by induction on the run, a faulted one by its first step. -/
theorem stoppedMachineStaysStopped : Obligations.StoppedMachineStaysStopped := by
  intro s n
  refine ⟨fun hs => ?_, fun f hf => run_succ_of_fault (step_of_faulted hf) n⟩
  induction n with
  | zero => rfl
  | succ n ih => exact (run_succ_of_next (step_of_halted hs) n).trans ih

end Sys2Proof.Machine
end
